-- ==== Sys2Proof/Word.lean ====
section
/-! DEFINITION. The word types of the core: bytes, 16-bit words, 12-bit addresses, register numbers (00_scope.md R4, §6). -/

namespace Sys2Proof

/-- u8: a register's contents, a byte of memory, an immediate NN, a sprite row. -/
abbrev Byte := BitVec 8

/-- u16: an instruction word, pc, I. -/
abbrev Word := BitVec 16

/-- u12: the NNN field of an instruction. -/
abbrev Addr12 := BitVec 12

/-- A register number: a 4-bit field, and all 16 values name a register (10_state.md R12). -/
abbrev RegIdx := Fin 16

/-- A sprite's row count N, 0..15 (00_scope.md R4 SPRITE_MAX_ROWS; 30_encoding.md R51). -/
abbrev RowCount := Fin 16

/-- VF is V[15] (10_state.md R11, R14). -/
abbrev VF : RegIdx := 15

end Sys2Proof
end

