-- ==== Sys2Proof/Config.lean ====
section
/-! DEFINITION. The core's fixed parameters (00_scope.md R4). Each is a constant of this hardware; the spec leaves none of
the core's parameters OPEN and leaves no result undefined, so there is no free value here. NREGS, REG_WIDTH, PC_WIDTH and
I_WIDTH stand in the types of Word.lean; SPRITE_EDGE_POLICY is clip, written out in Machine/Draw.lean (R79);
CYCLES_PER_TICK is 1 and TICK_RATE is information for the host (R8, R112). -/

namespace Sys2Proof.Config

/-- MEM_SIZE: addresses 0..4095. -/
@[simp] abbrev memSize : Nat := 0x1000

/-- RESERVED_END: 0x000..0x1FF is the reserved range, ordinary memory that boot leaves zero (20_memory.md R42). -/
@[simp] abbrev reservedEnd : Nat := 0x200

/-- PROG_BASE: where the program image is loaded. -/
@[simp] abbrev progBase : Nat := 0x200

/-- MAX_IMAGE: the longest image that fits. -/
@[simp] abbrev maxImage : Nat := 0xE00

/-- RESET_PC: the address of the first fetch (D1). -/
@[simp] abbrev resetPc : Word := 0x200#16

/-- W: the display's width in pixels. -/
@[simp] abbrev width : Nat := 64

/-- H: the display's height in pixels. -/
@[simp] abbrev height : Nat := 32

/-- SPRITE_WIDTH: one sprite row is one byte. -/
@[simp] abbrev spriteWidth : Nat := 8

/-- INSN_BYTES: every instruction is two bytes (30_encoding.md R48). -/
@[simp] abbrev insnBytes : Word := 2#16

end Sys2Proof.Config
end

