-- ==== Sys2Proof/Syntax.lean ====
section
/-! DEFINITION. The instructions: one constructor per row of spec/opcode_table.json, the decoder's results, the templates
of the opcode map, and the lines of an assembly listing (30_encoding.md R52, R53, R60). -/

namespace Sys2Proof

/-- The six instructions (00_scope.md R2). Each operand has exactly the width of its field (30_encoding.md R51), so a value
of this type is an instruction the encoding can hold. -/
inductive Instr where
  /-- CLS, 00E0: clear-screen (41_flow.md R71). -/
  | cls
  /-- JP nnn, 1NNN: jump (41_flow.md R72). -/
  | jp (nnn : Addr12)
  /-- LD Vx, nn, 6XNN: set-register (42_register_ops.md R73). -/
  | ldV (x : RegIdx) (nn : Byte)
  /-- ADD Vx, nn, 7XNN: add-register (42_register_ops.md R74). -/
  | addV (x : RegIdx) (nn : Byte)
  /-- LD I, nnn, ANNN: set-address (42_register_ops.md R75). -/
  | ldI (nnn : Addr12)
  /-- DRW Vx, Vy, n, DXYN: draw-sprite (43_draw.md R76). -/
  | drw (x y : RegIdx) (n : RowCount)
  deriving DecidableEq, Repr

/-- What the decoder makes of a word: one of the six operations with its operands, or Unimplemented(w), the rejection by
name (30_encoding.md R52). -/
inductive Decoded where
  | op (i : Instr)
  | unimplemented (w : Word)
  deriving DecidableEq, Repr

/-- A row of the opcode map: the words w with w AND mask = pattern (30_encoding.md R53; match and mask of
spec/opcode_table.json). -/
structure Template where
  mnemonic : String
  mask : Word
  pattern : Word
  deriving DecidableEq, Repr

/-- A line of an assembly listing, its operands as the numbers written (30_encoding.md R60). WellFormed.lean says which of
them assemble. -/
inductive AsmLine where
  | cls
  | jp (nnn : Nat)
  | ldV (x nn : Nat)
  | addV (x nn : Nat)
  | ldI (nnn : Nat)
  | drw (x y n : Nat)
  /-- DB: one data byte. -/
  | db (b : Nat)
  deriving DecidableEq, Repr

/-- The line that writes an instruction down (30_encoding.md R60). -/
def Instr.line : Instr → AsmLine
  | .cls => .cls
  | .jp nnn => .jp nnn.toNat
  | .ldV x nn => .ldV x.val nn.toNat
  | .addV x nn => .addV x.val nn.toNat
  | .ldI nnn => .ldI nnn.toNat
  | .drw x y n => .drw x.val y.val n.val

end Sys2Proof
end

