-- ==== Sys2Proof/WellFormed.lean ====
section
/-! DEFINITION. Which assembly lines are well formed (30_encoding.md R60): "An operand outside its field's width (a 13-bit
address, a register V16, n = 16) does not assemble." An Instr needs no such check of its own: its operands' types are the
fields' widths (Laws/PerInstr.lean proves that the line of every Instr is well formed). -/

namespace Sys2Proof

/-- The written number fits a field of `bits` bits. -/
abbrev fits (bits v : Nat) : Bool := decide (v < 2 ^ bits)

/-- Every operand fits its field: registers and n four bits, nn and a data byte eight, nnn twelve. -/
def AsmLine.wellFormed : AsmLine → Bool
  | .cls => true
  | .jp nnn => fits 12 nnn
  | .ldV x nn => fits 4 x && fits 8 nn
  | .addV x nn => fits 4 x && fits 8 nn
  | .ldI nnn => fits 12 nnn
  | .drw x y n => fits 4 x && fits 4 y && fits 4 n
  | .db b => fits 8 b

end Sys2Proof
end

