-- ==== Sys2Proof/Decode.lean ====
section
/-! DEFINITION. Byte order, the fields of a word, the decoder, the encoder and the assembler (20_memory.md R36,
30_encoding.md). -/

namespace Sys2Proof

/-! ### Byte order (20_memory.md R36) -/

/-- The word whose first byte in memory is `hi`: big-endian (20_memory.md R36). -/
def wordOfBytes (hi lo : Byte) : Word := (hi.zeroExtend 16 <<< 8) ||| lo.zeroExtend 16

/-- The byte that lies at the lower address. -/
def highByte (w : Word) : Byte := w.extractLsb' 8 8

/-- The byte that lies at the higher address. -/
def lowByte (w : Word) : Byte := w.extractLsb' 0 8

/-! ### Fields (30_encoding.md R49, R50) -/

/-- C, bits 15..12: the category. -/
def catField (w : Word) : BitVec 4 := w.extractLsb' 12 4

/-- X, bits 11..8, the same in every handler (R50). -/
def xField (w : Word) : RegIdx := (w.extractLsb' 8 4).toFin

/-- Y, bits 7..4. -/
def yField (w : Word) : RegIdx := (w.extractLsb' 4 4).toFin

/-- N, bits 3..0. -/
def nField (w : Word) : RowCount := (w.extractLsb' 0 4).toFin

/-- NN, bits 7..0. -/
def nnField (w : Word) : Byte := w.extractLsb' 0 8

/-- NNN, bits 11..0. -/
def nnnField (w : Word) : Addr12 := w.extractLsb' 0 12

/-! ### Decoder -/

/-- The decoder (30_encoding.md R52): a total function of the word alone. Category 0 holds one instruction, the exact word
00E0 (R54). -/
def decode (w : Word) : Decoded :=
  match (catField w).toNat with
  | 0x0 => if w = 0x00E0#16 then .op .cls else .unimplemented w
  | 0x1 => .op (.jp (nnnField w))
  | 0x6 => .op (.ldV (xField w) (nnField w))
  | 0x7 => .op (.addV (xField w) (nnField w))
  | 0xA => .op (.ldI (nnnField w))
  | 0xD => .op (.drw (xField w) (yField w) (nField w))
  | _ => .unimplemented w

/-- Decoding from a stream of bytes: always exactly two bytes, and the rest (30_encoding.md R48). None where no whole word
is left. -/
def decodeBytes : List Byte → Option (Decoded × List Byte)
  | hi :: lo :: rest => some (decode (wordOfBytes hi lo), rest)
  | _ => none

/-! ### Encoder -/

/-- A register number or a row count as the four bits of its field. -/
def nibble (v : Fin 16) : BitVec 4 := BitVec.ofFin v

/-- The word of an instruction, from the bit patterns of 30_encoding.md R53. -/
def encode : Instr → Word
  | .cls => 0x00E0#16
  | .jp nnn => 0x1#4 ++ nnn
  | .ldV x nn => 0x6#4 ++ nibble x ++ nn
  | .addV x nn => 0x7#4 ++ nibble x ++ nn
  | .ldI nnn => 0xA#4 ++ nnn
  | .drw x y n => 0xD#4 ++ nibble x ++ nibble y ++ nibble n

/-- The two bytes of a word as memory holds them. -/
def bytesOfWord (w : Word) : List Byte := [highByte w, lowByte w]

/-! ### Templates (30_encoding.md R53, spec/opcode_table.json) -/

/-- A word matches a template (30_encoding.md R53). -/
abbrev Template.accepts (t : Template) (w : Word) : Prop := w &&& t.mask = t.pattern

/-- The template of an instruction's row. -/
def Instr.template : Instr → Template
  | .cls => ⟨"CLS", 0xFFFF#16, 0x00E0#16⟩
  | .jp _ => ⟨"JP", 0xF000#16, 0x1000#16⟩
  | .ldV _ _ => ⟨"LD_V", 0xF000#16, 0x6000#16⟩
  | .addV _ _ => ⟨"ADD_V", 0xF000#16, 0x7000#16⟩
  | .ldI _ => ⟨"LD_I", 0xF000#16, 0xA000#16⟩
  | .drw _ _ _ => ⟨"DRW", 0xF000#16, 0xD000#16⟩

/-- The opcode map (30_encoding.md R53). -/
def opcodeMap : List Template :=
  [Instr.cls, .jp 0, .ldV 0 0, .addV 0 0, .ldI 0, .drw 0 0 0].map Instr.template

/-! ### Assembler (30_encoding.md R60) -/

/-- The instruction a line writes. None for a data byte. -/
def AsmLine.instr? : AsmLine → Option Instr
  | .cls => some .cls
  | .jp nnn => some (.jp (BitVec.ofNat 12 nnn))
  | .ldV x nn => some (.ldV (Fin.ofNat 16 x) (BitVec.ofNat 8 nn))
  | .addV x nn => some (.addV (Fin.ofNat 16 x) (BitVec.ofNat 8 nn))
  | .ldI nnn => some (.ldI (BitVec.ofNat 12 nnn))
  | .drw x y n => some (.drw (Fin.ofNat 16 x) (Fin.ofNat 16 y) (Fin.ofNat 16 n))
  | .db _ => none

/-- The bytes a line stands for. A line that is not well formed does not assemble (30_encoding.md R60). -/
def AsmLine.assemble (l : AsmLine) : Option (List Byte) :=
  if l.wellFormed then
    match l with
    | .db b => some [BitVec.ofNat 8 b]
    | _ => l.instr?.map (fun i => bytesOfWord (encode i))
  else none

/-- The image of a listing: its lines' bytes in order. -/
def assemble : List AsmLine → Option (List Byte)
  | [] => some []
  | l :: ls =>
    match l.assemble, assemble ls with
    | some bs, some rest => some (bs ++ rest)
    | _, _ => none

/-! ### The opcode table's numbering of bits -/

/-- The first word of an instruction whose bits are `w`, of which the table gives `nbits`: bits above `nbits` are 0. -/
def tableWord (nbits w : Nat) : Word := BitVec.ofNat 16 (w % 2 ^ nbits)

/-- The instruction the decoder reads from the bytes of `tableWord nbits w`, laid out as memory holds them. -/
def decodeTableWord (nbits w : Nat) : Option Instr :=
  match decodeBytes (bytesOfWord (tableWord nbits w)) with
  | some (.op i, _) => some i
  | _ => none

end Sys2Proof
end

