-- ==== Sys2Proof/Machine/State.lean ====
section
/-! DEFINITION. The core's state, plain data, exactly the six parts of 10_state.md R10; the state after reset (R31); the
reasons a step can stop; and the data that boot takes and gives (70_reset_and_hazards.md R101 to R104). -/

namespace Sys2Proof.Machine

/-- The run-time faults (60_exceptions.md R90). -/
inductive FaultCode where
  /-- Code 1: the fetched word matches no template (R87). -/
  | unimplementedOpcode
  /-- Code 2: pc + 1 > 0xFFF at a fetch (R88). -/
  | fetchOutOfBounds
  /-- Code 3: a row of a draw lies past 0xFFF (R89). -/
  | spriteOutOfBounds
  deriving DecidableEq, Repr

/-- The run-state latch (10_state.md R30). `word` is none for a fetch fault, the spec's own value there. -/
inductive Status where
  | running
  | faulted (code : FaultCode) (addr : Word) (word : Option Word)
  deriving DecidableEq, Repr

/-- Memory: the bytes that are not 0x00, by rising address. An unlisted address of the space 0x000..0xFFF reads 0x00, what
construction leaves there (10_state.md R31). Machine/Ops.lean reads and writes it; `Memory.wf` there is its one form. -/
abbrev Memory := List Host.Cell

/-- The Display Buffer: 32 rows of 64 pixels, true is lit (10_state.md R24, R25). -/
abbrev Display := Vector (Vector Bool Config.width) Config.height

/-- The clear display. -/
def Display.unlit : Display := Vector.replicate Config.height (Vector.replicate Config.width false)

/-- The core's state (10_state.md R10): "exactly these parts, and no others". -/
structure State where
  /-- The bytes of memory (R22). -/
  memory : Memory
  /-- The program counter (R16). -/
  pc : Word
  /-- The address register; bits 15..12 stay 0 (R20, R21). -/
  I : Word
  /-- V0..VF (R11). -/
  V : Vector Byte 16
  /-- The Display Buffer (R24). -/
  FB : Display
  /-- The run-state latch (R30). -/
  status : Status
  deriving DecidableEq, Repr

/-- The state after reset (10_state.md R31) with no image byte in memory, which is the state boot makes of the empty image
(70_reset_and_hazards.md R101, R105). -/
def State.reset : State where
  memory := []
  pc := Config.resetPc
  I := 0#16
  V := Vector.replicate 16 0#8
  FB := Display.unlit
  status := .running

/-- Reasons for which a step stops outside the spec's own fault latch: there is none, so this type is empty. The spec's
three faults are next states whose status is Faulted (60_exceptions.md R91, R94; log entry 1), and it names no other way
for a cycle to stop. Safe: a type without a value lets nothing stop. -/
inductive Fault : Type
  deriving DecidableEq, Repr

/-- Refusals. -/
inductive Refusal where
  /-- Raised by an arm of `exec` whose instruction has no meaning yet, under the opcode table's mnemonic; no arm is left
  that raises it. Safe: it stops where the core goes on. -/
  | notModelled (mnemonic : String)
  deriving DecidableEq, Repr

/-- What the host hands to boot (70_reset_and_hazards.md R101, R104): the image's bytes, or word that it could not be
read. -/
inductive ImageReport where
  | bytes (image : List Byte)
  | unreadable
  deriving DecidableEq, Repr

/-- Boot's two errors, which are no run-time faults (60_exceptions.md R90). -/
inductive BootError where
  /-- The image is longer than 0xE00 bytes (R103). -/
  | loadImageTooLarge
  /-- The host could not read the image (R104). -/
  | loadIOError
  deriving DecidableEq, Repr

/-- The display and the collision flag while a sprite is drawn (43_draw.md R76, steps 3 and 4). Not part of the state. -/
structure Canvas where
  FB : Display
  collision : Bool
  deriving DecidableEq, Repr

end Sys2Proof.Machine
end

