-- ==== Sys2Proof/Machine/Ops.lean ====
section
/-! DEFINITION. The shared operations: the memory controller's ports, the registers, the display's access operations, the
advance of pc, and taking a fault (20_memory.md, 10_state.md, 40_cycle.md, 60_exceptions.md). -/

namespace Sys2Proof.Machine

/-! ### The memory array (20_memory.md R34, R35) -/

/-- The array's byte at an address: the listed one, else 0x00 (10_state.md R31). -/
def Memory.peek : Memory → Nat → Byte
  | [], _ => 0#8
  | (k, b) :: m, a => if k = a then b else Memory.peek m a

/-- The array with one byte stored, in the same form: addresses rising, no byte 0x00 listed. -/
def Memory.poke : Memory → Nat → Byte → Memory
  | [], a, b => if b = 0#8 then [] else [(a, b)]
  | (k, c) :: m, a, b =>
    if a < k then (if b = 0#8 then (k, c) :: m else (a, b) :: (k, c) :: m)
    else if a = k then (if b = 0#8 then m else (a, b) :: m)
    else (k, c) :: Memory.poke m a b

/-- The canonical form: addresses strictly rising, all inside the space, and no entry equal to what an unlisted address
reads as. -/
def Memory.wf (m : Memory) : Bool :=
  decide (m.Pairwise (fun p q => p.1 < q.1)) && m.all (fun p => decide (p.1 < Config.memSize) && p.2 != 0#8)

/-- MemRead(a, 1), the sprite port: none past 0xFFF (20_memory.md R39). -/
def Memory.read (m : Memory) (a : Nat) : Option Byte :=
  if a < Config.memSize then some (m.peek a) else none

/-- MemRead(a, 2), the fetch port: big-endian (R36), and none, with no byte read, when a + 1 > 0xFFF (R38). Any address
will do, odd ones too (R41). -/
def Memory.readWord (m : Memory) (a : Nat) : Option Word :=
  if a + 1 > 0xFFF then none else some (wordOfBytes (m.peek a) (m.peek (a + 1)))

/-- `n` sprite rows from `base` upward. None if any of them lies past 0xFFF: the sum is not truncated and does not wrap
(20_memory.md R39), and every row is checked (43_draw.md R85). -/
def Memory.readRows (m : Memory) (base : Nat) : Nat → Option (List Byte)
  | 0 => some []
  | n + 1 =>
    match m.read base, Memory.readRows m (base + 1) n with
    | some row, some rows => some (row :: rows)
    | _, _ => none

/-- The load port: MemWrite(base + i, 1, image[i]) for each byte (20_memory.md R40). Boot keeps it within the space. -/
def Memory.load (m : Memory) (base : Nat) : List Byte → Memory
  | [] => m
  | b :: image => Memory.load (m.poke base b) (base + 1) image

/-! ### Registers (10_state.md R11, R16, R20, R21) -/

/-- Read V[r]. -/
def State.readV (s : State) (r : RegIdx) : Byte := s.V[r]

/-- Write V[r]. No register is hard-wired (R11). -/
def State.setV (s : State) (r : RegIdx) (b : Byte) : State := { s with V := s.V.set r b }

/-- Write pc. -/
def State.setPc (s : State) (a : Word) : State := { s with pc := a }

/-- Write I: masked to 12 bits (R21). -/
def State.setI (s : State) (v : Word) : State := { s with I := v &&& 0x0FFF#16 }

/-! ### The display's access operations (10_state.md R28)

The coordinates' types are the grid, so an access outside it cannot be written down (log entry 8). -/

/-- read(x, y). -/
def Display.read (d : Display) (x : Fin Config.width) (y : Fin Config.height) : Bool := d[y][x]

/-- write(x, y, lit). -/
def Display.write (d : Display) (x : Fin Config.width) (y : Fin Config.height) (lit : Bool) : Display :=
  d.set y (d[y].set x lit)

/-- FB[x, y]. -/
def State.pixel (s : State) (x : Fin Config.width) (y : Fin Config.height) : Bool := s.FB.read x y

/-- Write the display as a whole. -/
def State.setFB (s : State) (d : Display) : State := { s with FB := d }

/-! ### Fetch and advance (40_cycle.md R62, R63) -/

/-- The word at pc, or none where the fetch is out of bounds (20_memory.md R38). -/
def fetch (s : State) : Option Word := s.memory.readWord s.pc.toNat

/-- pc <- a + 2: every handler starts from here (40_cycle.md R63). -/
def advance (s : State) : State := s.setPc (s.pc + Config.insnBytes)

/-! ### Taking a fault (60_exceptions.md R91) -/

/-- Fault entry: the status takes the record, and every other part of the state BEFORE the cycle stays (60_exceptions.md
R91, 40_cycle.md R66). `s` is that state. There is no return: a fault is terminal (R94). -/
def raiseFault (s : State) (code : FaultCode) (addr : Word) (word : Option Word) : State :=
  { s with status := .faulted code addr word }

/-- FetchOutOfBounds: addr = pc, word = none (R88). -/
def takeFetchFault (s : State) : State := raiseFault s .fetchOutOfBounds s.pc none

/-- UnimplementedOpcode: addr = the fetch address, word = the word (R87). -/
def takeUnimplemented (s : State) (w : Word) : State := raiseFault s .unimplementedOpcode s.pc (some w)

/-- SpriteOutOfBounds: addr = the fetch address of the draw, word = its word, which is the encoding of the instruction (R89;
log entry 3). -/
def takeSpriteFault (s : State) (i : Instr) : State := raiseFault s .spriteOutOfBounds s.pc (some (encode i))

/-- A tick in Faulted changes nothing, status included (R94). -/
def faultedTick (s : State) : State := s

/-- The number of a fault code (R90). -/
def FaultCode.number : FaultCode → Nat
  | .unimplementedOpcode => 1
  | .fetchOutOfBounds => 2
  | .spriteOutOfBounds => 3

/-! ### Boot (70_reset_and_hazards.md R101 to R105) -/

/-- boot(image): refuses an image longer than MAX_IMAGE before it writes a byte (R103), else builds the reset state and
loads the image at PROG_BASE (R102). With no readable image there is no core (R104). -/
def boot : ImageReport → Except BootError State
  | .unreadable => .error .loadIOError
  | .bytes image =>
    if image.length > Config.maxImage then .error .loadImageTooLarge
    else .ok { State.reset with memory := State.reset.memory.load Config.progBase image }

end Sys2Proof.Machine
end

