-- ==== Sys2Proof/Machine/Flags.lean ====
section
/-! DEFINITION. The core's one flag, VF as the collision flag of a draw (43_draw.md R80). There are no condition codes and
addition makes no carry (10_state.md R29, 42_register_ops.md R74). -/

namespace Sys2Proof.Machine

/-- The flag's value: exactly 1 or 0 (43_draw.md R80). -/
def collisionByte (collision : Bool) : Byte := if collision then 1#8 else 0#8

/-- VF <- collision (43_draw.md R76, step 4). -/
def setCollisionFlag (s : State) (collision : Bool) : State := s.setV VF (collisionByte collision)

end Sys2Proof.Machine
end

