-- ==== Sys2Proof/Machine/Operands.lean ====
section
/-! DEFINITION. The operand forms (30_encoding.md R51): nothing is sign-extended, scaled or shifted. A register operand is
`State.readV` of Ops.lean; an immediate NN and a row count N stand for themselves. -/

namespace Sys2Proof.Machine

/-- The 12-bit address NNN as pc or I takes it: zero-extended (30_encoding.md R51). -/
def addressOperand (nnn : Addr12) : Word := nnn.zeroExtend 16

/-- x0 = V[X] mod W (43_draw.md R77). -/
def originX (s : State) (x : RegIdx) : Nat := (s.readV x).toNat % Config.width

/-- y0 = V[Y] mod H (43_draw.md R77). -/
def originY (s : State) (y : RegIdx) : Nat := (s.readV y).toNat % Config.height

/-- The sprite's rows: memory[I + r] for r in 0..N-1, or none where one lies past 0xFFF (43_draw.md R78, R85). -/
def spriteRows (s : State) (n : RowCount) : Option (List Byte) := s.memory.readRows s.I.toNat n.val

end Sys2Proof.Machine
end

