-- ==== Sys2Proof/Machine/Draw.lean ====
section
/-! DEFINITION. The draw-sprite engine (43_draw.md). The loops run in the order of R76's pseudocode: rows upward, and in a
row columns 0 to 7. The meaning takes the state BEFORE its cycle (log entry 2). -/

namespace Sys2Proof.Machine

/-- One set bit of a sprite at (px, py): clipped outside the grid (R79); inside, the pixel flips, and turning a lit pixel
unlit is a collision (R80). -/
def xorPixel (k : Canvas) (px py : Nat) : Canvas :=
  if h : px < Config.width ∧ py < Config.height then
    { FB := k.FB.write ⟨px, h.1⟩ ⟨py, h.2⟩ (!k.FB.read ⟨px, h.1⟩ ⟨py, h.2⟩)
      collision := k.collision || k.FB.read ⟨px, h.1⟩ ⟨py, h.2⟩ }
  else k

/-- The first `c` columns of a sprite row, left to right: column c is bit 7 - c (R78). -/
def drawColumns (row : Byte) (x0 py : Nat) : Nat → Canvas → Canvas
  | 0, k => k
  | c + 1, k =>
    let k' := drawColumns row x0 py c k
    if row.getLsbD (7 - c) then xorPixel k' (x0 + c) py else k'

/-- The rows of a sprite, the first of them on display row `py` (R78). -/
def drawRows (x0 : Nat) : Nat → List Byte → Canvas → Canvas
  | _, [], k => k
  | py, row :: rows, k => drawRows x0 (py + 1) rows (drawColumns row x0 py Config.spriteWidth k)

/-- DRW Vx, Vy, n (R76). The position, I and the rows are read before anything is written (R82), and every row is checked
before any pixel or VF changes (R85). The collision flag starts cleared. -/
def execDrw (x y : RegIdx) (n : RowCount) (s : State) : Host.Outcome State Fault Refusal :=
  match spriteRows s n with
  | none => .next (takeSpriteFault s (.drw x y n))
  | some rows =>
    let k := drawRows (originX s x) (originY s y) rows { FB := s.FB, collision := false }
    .next (setCollisionFlag ((advance s).setFB k.FB) k.collision)

end Sys2Proof.Machine
end

