-- ==== Sys2Proof/Machine/Flow.lean ====
section
/-! DEFINITION. Clear-screen and jump (41_flow.md). A meaning takes the state BEFORE its cycle, where pc is the
instruction's own address, and begins with the cycle's advance (40_cycle.md R63; log entry 2). -/

namespace Sys2Proof.Machine

/-- CLS (41_flow.md R71): every pixel unlit. -/
def execCls (s : State) : Host.Outcome State Fault Refusal := .next ((advance s).setFB Display.unlit)

/-- JP nnn (41_flow.md R72): pc <- zext_16(nnn), over the advance. -/
def execJp (nnn : Addr12) (s : State) : Host.Outcome State Fault Refusal :=
  .next ((advance s).setPc (addressOperand nnn))

end Sys2Proof.Machine
end

