-- ==== Sys2Proof/Machine/Register.lean ====
section
/-! DEFINITION. Set-register, add-register and set-address (42_register_ops.md). A meaning takes the state BEFORE its cycle
and begins with the cycle's advance (40_cycle.md R63; log entry 2). -/

namespace Sys2Proof.Machine

/-- LD Vx, nn (42_register_ops.md R73): V[x] <- nn. -/
def execLdV (x : RegIdx) (nn : Byte) (s : State) : Host.Outcome State Fault Refusal := .next ((advance s).setV x nn)

/-- ADD Vx, nn (42_register_ops.md R74): V[x] <- (V[x] + nn) mod 256, with no flag. -/
def execAddV (x : RegIdx) (nn : Byte) (s : State) : Host.Outcome State Fault Refusal :=
  .next ((advance s).setV x (s.readV x + nn))

/-- LD I, nnn (42_register_ops.md R75): I <- zext_16(nnn), masked by the write of I. -/
def execLdI (nnn : Addr12) (s : State) : Host.Outcome State Fault Refusal :=
  .next ((advance s).setI (addressOperand nnn))

end Sys2Proof.Machine
end

