-- ==== Sys2Proof/Machine/Step.lean ====
section
/-! DEFINITION. One tick (40_cycle.md R61, 60_exceptions.md R94), and the placing of an instruction where the next tick
fetches. -/

namespace Sys2Proof.Machine

/-- One tick: nothing in Faulted (60_exceptions.md R94); in Running one cycle: fetch, decode, and the instruction's meaning,
which begins with the advance of pc (40_cycle.md R61). -/
def step (s : State) : Host.Outcome State Fault Refusal :=
  match s.status with
  | .faulted _ _ _ => .next (faultedTick s)
  | .running =>
    match fetch s with
    | none => .next (takeFetchFault s)
    | some w =>
      match decode w with
      | .unimplemented _ => .next (takeUnimplemented s w)
      | .op i => exec i s

/-- `s` with an instruction's bytes stored at pc, the first at the lower address, and the status Running, so that the next
step runs it. Where no fetch can succeed at pc (pc ≥ 0xFFF), pc is RESET_PC (log entry 5). -/
def State.withFetchWord (s : State) (nbits w : Nat) : State :=
  let pc := if s.pc.toNat + 1 > 0xFFF then Config.resetPc else s.pc
  { s with memory := s.memory.load pc.toNat (bytesOfWord (tableWord nbits w)), pc := pc, status := .running }

end Sys2Proof.Machine
end

