-- ==== Sys2Proof/Machine/HostPorts.lean ====
section
/-! DEFINITION. What the host may do to the core, and no more (00_scope.md R6), and the colours it shows (R9). -/

namespace Sys2Proof.Machine

/-- The interactions of 00_scope.md R6. -/
inductive HostAction where
  | boot (report : ImageReport)
  | tick
  | fbOut
  | statusOut
  | terminate
  deriving DecidableEq, Repr

/-- What the host gets back. `notOffered`: the interaction is not there (log entry 11). -/
inductive HostAnswer where
  | done
  | bootFailed (e : BootError)
  | display (d : Display)
  | status (st : Status)
  | notOffered
  deriving DecidableEq, Repr

/-- The state after one tick. A step of this machine always answers a next state. -/
def tick (s : State) : State :=
  match step s with
  | .next t => t
  | .fault _ => s
  | .refused _ => s

/-- One interaction, on the core the host holds, or on none: before boot, after a failed boot and after terminate. Boot is
there once, before the first tick (R6), and no core is reset or reloaded (70_reset_and_hazards.md R107). The two outputs
are read only (10_state.md R27). -/
def interact : Option State → HostAction → Option State × HostAnswer
  | none, .boot report =>
    match boot report with
    | .ok s => (some s, .done)
    | .error e => (none, .bootFailed e)
  | none, .tick => (none, .notOffered)
  | none, .fbOut => (none, .notOffered)
  | none, .statusOut => (none, .notOffered)
  | none, .terminate => (none, .notOffered)
  | some s, .boot _ => (some s, .notOffered)
  | some s, .tick => (some (tick s), .done)
  | some s, .fbOut => (some s, .display s.FB)
  | some s, .statusOut => (some s, .status s.status)
  | some _, .terminate => (none, .done)

/-- The host's two colours (00_scope.md R9); their bytes are not given (D21). -/
inductive HostPixel where
  | opaqueWhite
  | transparentBlack
  deriving DecidableEq, Repr

/-- The presentation mapping of one pixel (00_scope.md R9). -/
def presentPixel (lit : Bool) : HostPixel := if lit then .opaqueWhite else .transparentBlack

end Sys2Proof.Machine
end

