-- ==== Sys2Proof/Safety.lean ====
section
/-! DEFINITION. What a safe run is, and the invariant of the machine. A Faulted state is a fault outcome, never a good end
(60_exceptions.md R92): claims about fault-free runs are stated with `FaultFree`. -/

namespace Sys2Proof.Machine

/-- The state after `k` ticks (40_cycle.md R69, R70). -/
def ticks : Nat → State → State
  | 0, s => s
  | k + 1, s => ticks k (tick s)

/-- No fault within the first `k` ticks (40_cycle.md R70, 60_exceptions.md R92). -/
def FaultFree (k : Nat) (s : State) : Prop := ∀ j ≤ k, (ticks j s).status = .running

/-- The fault record is the one the state calls for: it names the instruction at pc, which has not advanced, and the fault
is the one that instruction raises (60_exceptions.md R87 to R91, 40_cycle.md R66). -/
def RecordExplained (s : State) : Prop :=
  match s.status with
  | .running => True
  | .faulted .fetchOutOfBounds addr word => addr = s.pc ∧ word = none ∧ fetch s = none
  | .faulted .unimplementedOpcode addr word =>
    addr = s.pc ∧ ∃ w, fetch s = some w ∧ word = some w ∧ decode w = .unimplemented w
  | .faulted .spriteOutOfBounds addr word =>
    addr = s.pc ∧ ∃ w x y n, fetch s = some w ∧ word = some w ∧ decode w = .op (.drw x y n) ∧ spriteRows s n = none

/-- The invariant: memory in its canonical form, pc in 0x000..0x1000 (10_state.md R18), I at most 0xFFF (R21), and a fault
record that explains itself. -/
structure Inv (s : State) : Prop where
  memory_wf : s.memory.wf = true
  pc_le : s.pc.toNat ≤ 0x1000
  I_le : s.I.toNat ≤ 0xFFF
  record : RecordExplained s

end Sys2Proof.Machine
end

