-- ==== Sys2Proof/Certificates/Slice0/Obligations.lean ====
section
/-! DEFINITION. The statements about the core, for the provers. Each docstring names the rule or the section of spec/ it
formalises. `s` is the state before a cycle; a meaning runs from that state (log entry 2). -/

open Sys2Proof Sys2Proof.Machine

namespace Sys2Proof.Claims

/-- `s` is Running and the big-endian word at pc, which lies inside memory, is `w`. -/
def Fetches (s : State) (w : Word) : Prop :=
  s.status = .running ∧ s.pc.toNat + 1 ≤ 0xFFF ∧
    wordOfBytes (s.memory.peek s.pc.toNat) (s.memory.peek (s.pc.toNat + 1)) = w

/-- `s` is Running and the word at pc is the instruction `i`. -/
def Runs (s : State) (i : Instr) : Prop := ∃ w, Fetches s w ∧ decode w = .op i

/-- Every row of a sprite of `n` rows lies inside memory (20_memory.md R39). -/
def SpriteFits (s : State) (n : RowCount) : Prop := ∀ r < n.val, s.I.toNat + r ≤ 0xFFF

/-- A set bit of the sprite that DRW Vx, Vy, n draws from `s` lands on (px, py): row r, column c, bit 7 - c
(43_draw.md R77, R78). A position outside the grid is no (px, py), so it is not covered (R79). -/
def Covered (s : State) (x y : RegIdx) (n : RowCount) (px : Fin Config.width) (py : Fin Config.height) : Prop :=
  ∃ r c, r < n.val ∧ c < 8 ∧ px.val = (s.readV x).toNat % 64 + c ∧ py.val = (s.readV y).toNat % 32 + r ∧
    (s.memory.peek (s.I.toNat + r)).getLsbD (7 - c) = true

/-- The registers an instruction reads (10_state.md R13). -/
def Reads : Instr → List RegIdx
  | .cls => []
  | .jp _ => []
  | .ldV _ _ => []
  | .addV x _ => [x]
  | .ldI _ => []
  | .drw x y _ => [x, y]

/-- The registers an instruction writes (10_state.md R13). -/
def Writes : Instr → List RegIdx
  | .cls => []
  | .jp _ => []
  | .ldV x _ => [x]
  | .addV x _ => [x]
  | .ldI _ => []
  | .drw _ _ _ => [VF]

end Sys2Proof.Claims

open Sys2Proof.Claims

/-! ### The cycle -/

/-- 40_cycle.md section 1: in Running, a step whose fetch is in bounds and whose word decodes to an instruction is exec of
that instruction, with nothing added around it: the move of pc past the word is inside exec, and every instruction but a
jump that ends in Running has moved pc by 2. -/
def Obligations.StepRunsTheDecodedInstruction : Prop :=
  ∀ (s : State) (w : Word) (i : Instr), Fetches s w → decode w = .op i →
    step s = exec i s ∧
    ∀ t, exec i s = .next t → t.status = .running → (∀ nnn, i ≠ .jp nnn) → t.pc = s.pc + 2

/-- 20_memory.md R36, 30_encoding.md R48: the byte at the lower address is the high byte of the fetched word, at any pc from
which a fetch is in bounds, odd or even. -/
def Obligations.FetchIsBigEndian : Prop :=
  ∀ s : State, s.pc.toNat + 1 ≤ 0xFFF → ∃ w, fetch s = some w ∧
    w = ((s.memory.peek s.pc.toNat).zeroExtend 16 <<< 8) ||| (s.memory.peek (s.pc.toNat + 1)).zeroExtend 16 ∧
    w.toNat = 256 * (s.memory.peek s.pc.toNat).toNat + (s.memory.peek (s.pc.toNat + 1)).toNat

/-- 10_state.md R17: every successful fetch adds 2 to pc and jump then replaces it; no other instruction writes it. A cycle
that faults leaves pc. -/
def Obligations.PcChangesInTwoWays : Prop :=
  ∀ s t : State, s.status = .running → step s = .next t →
    (t.status = .running →
      (∃ nnn, Runs s (.jp nnn) ∧ t.pc = nnn.zeroExtend 16) ∨
      ((∃ i, Runs s i ∧ ∀ nnn, i ≠ .jp nnn) ∧ t.pc.toNat = s.pc.toNat + 2)) ∧
    (t.status ≠ .running → t.pc = s.pc)

/-- 40_cycle.md section 3, 00_scope.md section 5: a tick always ends in exactly one next state; no step and no run of `k`
ticks ends in a host fault or a refusal. -/
def Obligations.EveryTickCompletes : Prop :=
  (∀ s : State, ∃ t, step s = .next t) ∧ ∀ (k : Nat) (s : State), ∃ t, Sys2Proof.core.run k s = .next t

/-! ### Faults -/

/-- 60_exceptions.md R88: a fetch with pc + 1 > 0xFFF faults with code 2, addr = pc, word none, whatever memory holds; from
an invariant state pc is then 0xFFF or 0x1000; a jump to 0xFFF and a fall through past 0xFFE lead there. -/
def Obligations.FetchPastTheEndFaults : Prop :=
  FaultCode.fetchOutOfBounds.number = 2 ∧
  (∀ s : State, s.status = .running → s.pc.toNat + 1 > 0xFFF →
    step s = .next { s with status := .faulted .fetchOutOfBounds s.pc none } ∧
    (Inv s → s.pc.toNat = 0xFFF ∨ s.pc.toNat = 0x1000)) ∧
  (∀ s : State, s.status = .running → ∃ t, exec (.jp 0xFFF) s = .next t ∧
    step t = .next { t with status := .faulted .fetchOutOfBounds 0xFFF none }) ∧
  (∀ (s t : State) (i : Instr), Runs s i → s.pc = 0xFFE → (∀ nnn, i ≠ .jp nnn) → step s = .next t →
    t.status = .running → t.pc = 0x1000 ∧ step t = .next { t with status := .faulted .fetchOutOfBounds 0x1000 none })

/-- 60_exceptions.md R87: a word of category 0 other than 00E0, or of category 2, 3, 4, 5, 8, 9, B, C, E or F, faults with
code 1, addr = the fetch address, word = the word; nothing else changes. -/
def Obligations.UnimplementedWordFaults : Prop :=
  FaultCode.unimplementedOpcode.number = 1 ∧
  ∀ (s : State) (w : Word), Fetches s w →
    (w.toNat / 4096 = 0 ∧ w ≠ 0x00E0#16 ∨ w.toNat / 4096 ∈ [2, 3, 4, 5, 8, 9, 0xB, 0xC, 0xE, 0xF]) →
    decode w = .unimplemented w ∧
    step s = .next { s with status := .faulted .unimplementedOpcode s.pc (some w) }

/-- 60_exceptions.md R89, 43_draw.md R85: a draw one of whose rows lies past 0xFFF, clipped or not, faults with code 3, the
fetch address and the fetched word, and changes nothing else; a draw all of whose rows lie inside does not fault. -/
def Obligations.SpritePastTheEndFaults : Prop :=
  FaultCode.spriteOutOfBounds.number = 3 ∧
  ∀ (s : State) (w : Word) (x y : RegIdx) (n : RowCount), Fetches s w → decode w = .op (.drw x y n) →
    ((∃ r < n.val, s.I.toNat + r > 0xFFF) →
      step s = .next { s with status := .faulted .spriteOutOfBounds s.pc (some w) }) ∧
    ((∀ r < n.val, s.I.toNat + r ≤ 0xFFF) → ∃ t, step s = .next t ∧ t.status = .running)

/-- 40_cycle.md R66, 60_exceptions.md R91: a cycle that faults ends in the state before it with only status changed; the
record's addr is the fetch address, its word none for a fetch fault and the fetched word otherwise. -/
def Obligations.FaultIsAllOrNothing : Prop :=
  ∀ s t : State, s.status = .running → step s = .next t → t.status ≠ .running →
    ∃ code word, t = { s with status := .faulted code s.pc word } ∧
      (code = .fetchOutOfBounds ∧ word = none ∧ s.pc.toNat + 1 > 0xFFF ∨
       code ≠ .fetchOutOfBounds ∧ ∃ w, Fetches s w ∧ word = some w)

/-- 60_exceptions.md R94: in Faulted a tick changes nothing, status included, and no number of ticks leaves it. -/
def Obligations.FaultIsTerminal : Prop :=
  ∀ (s : State) (code : FaultCode) (addr : Word) (word : Option Word), s.status = .faulted code addr word →
    step s = .next s ∧ ∀ k, Sys2Proof.core.run k s = .next s

/-- 60_exceptions.md sections 2 and 4, 40_cycle.md section 3: since Faulted is never left, a run of `k` ticks had no fault
exactly when the state at its end is Running. -/
def Obligations.FaultFreeIsSeenAtTheEnd : Prop :=
  ∀ (k : Nat) (s : State), FaultFree k s ↔ (ticks k s).status = .running

/-! ### Decoding -/

/-- 30_encoding.md section 3: decoding and encoding are inverse. A word decodes to an instruction exactly when it is that
instruction's encoding, for every operand of every instruction. -/
def Obligations.DecodeAndEncodeAgree : Prop :=
  ∀ (w : Word) (i : Instr), decode w = .op i ↔ encode i = w

/-- 30_encoding.md R58: the templates of the opcode map do not overlap, each fixes a category of its own, category 0
accepts one word, a word decodes to an instruction exactly when a template accepts it, and two words of one template select
the same handler, with other operands if their words differ. -/
def Obligations.DecodingIsUnique : Prop :=
  (∀ t ∈ opcodeMap, ∀ u ∈ opcodeMap, ∀ w : Word, t.accepts w → u.accepts w → t = u) ∧
  (∀ t ∈ opcodeMap, ∀ u ∈ opcodeMap, t.pattern >>> 12 = u.pattern >>> 12 → t = u) ∧
  (∀ t ∈ opcodeMap, ∀ w : Word, w.toNat < 0x1000 → t.accepts w → w = 0x00E0#16) ∧
  (∀ w : Word, (∃ i, decode w = .op i) ↔ ∃ t ∈ opcodeMap, t.accepts w) ∧
  (∀ t ∈ opcodeMap, ∀ w v : Word, t.accepts w → t.accepts v → w ≠ v →
    ∃ i j, decode w = .op i ∧ decode v = .op j ∧ i.template = t ∧ j.template = t ∧ i ≠ j)

/-- 30_encoding.md R54: category 0 holds exactly one implemented word, 00E0. -/
def Obligations.CategoryZeroHoldsOneInstruction : Prop :=
  decode 0x00E0#16 = .op .cls ∧ ∀ w : Word, w.toNat < 0x1000 → w ≠ 0x00E0#16 → decode w = .unimplemented w

/-- 30_encoding.md R49, R50: the fields are the bits they name, numerically exact for every word, by mask and shift too, and
every handler that names a register takes X from bits 11..8. -/
def Obligations.FieldsAreExact : Prop :=
  (∀ w : Word, (catField w).toNat = w.toNat / 4096 ∧ (xField w).val = w.toNat / 256 % 16 ∧
    (yField w).val = w.toNat / 16 % 16 ∧ (nField w).val = w.toNat % 16 ∧
    (nnField w).toNat = w.toNat % 256 ∧ (nnnField w).toNat = w.toNat % 4096 ∧
    (nnField w).toNat = 16 * (yField w).val + (nField w).val ∧
    (nnnField w).toNat = 256 * (xField w).val + (nnField w).toNat ∧
    (xField w).val = ((w &&& 0x0F00#16) >>> 8).toNat) ∧
  (∀ (w : Word) (x : RegIdx) (nn : Byte), decode w = .op (.ldV x nn) ∨ decode w = .op (.addV x nn) →
    x.val = w.toNat / 256 % 16) ∧
  (∀ (w : Word) (x y : RegIdx) (n : RowCount), decode w = .op (.drw x y n) →
    x.val = w.toNat / 256 % 16 ∧ y.val = w.toNat / 16 % 16)

/-- 30_encoding.md section 3: a word of each family, written out from the opcode map, decodes to its instruction, and two
words of no family do not decode. 95_test_vectors.md section 2.1 lists 00E0, 1FFF, 6A42, DFEF, 0010 and 8014, section 2.4
lists 7F01 and A20A. -/
def Obligations.WrittenOutWordsDecode : Prop :=
  decode 0x00E0#16 = .op .cls ∧ decode 0x1FFF#16 = .op (.jp 0xFFF) ∧ decode 0x6A42#16 = .op (.ldV 10 0x42) ∧
  decode 0x7F01#16 = .op (.addV 15 0x01) ∧ decode 0xA20A#16 = .op (.ldI 0x20A) ∧
  decode 0xDFEF#16 = .op (.drw 15 14 15) ∧ decode 0x0010#16 = .unimplemented 0x0010#16 ∧
  decode 0x8014#16 = .unimplemented 0x8014#16

/-- 30_encoding.md section 5 (the listing syntax is the spec's own choice, D14): a line assembles exactly when every operand
fits its field; its bytes are then one data byte, or the two bytes of the instruction it writes, which decode back to it. -/
def Obligations.AssembledLinesDecode : Prop :=
  ∀ l : AsmLine, (l.assemble = none ↔ l.wellFormed = false) ∧
    ∀ bs, l.assemble = some bs →
      (∃ b : Byte, l = .db b.toNat ∧ bs = [b]) ∨ (∃ i, l = i.line ∧ bs.length = 2 ∧ decodeBytes bs = some (.op i, []))

/-! ### The plain instructions: result, completion and frame -/

/-- 41_flow.md R71: 00E0 makes every pixel unlit, whatever it was, advances pc, and changes nothing else. -/
def Obligations.ClearScreenClears : Prop :=
  decode 0x00E0#16 = .op .cls ∧
  ∀ s : State, ∃ t, exec .cls s = .next t ∧ (∀ px py, t.pixel px py = false) ∧ t.pc = s.pc + 2 ∧
    (∀ r, t.readV r = s.readV r) ∧ t.I = s.I ∧ (∀ a, t.memory.read a = s.memory.read a) ∧ t.status = s.status

/-- 41_flow.md R72: 1NNN sets pc to zext_16(NNN), whatever it was, odd or even, and changes nothing else. A bad target shows
at the next fetch: out of bounds at 0xFFF and at no other target, or an unimplemented word with addr = NNN. A jump to itself
is an idle loop. -/
def Obligations.JumpSetsPc : Prop :=
  (∀ nnn : Addr12, decode (0x1#4 ++ nnn) = .op (.jp nnn)) ∧
  (∀ (nnn : Addr12) (s : State), ∃ t, exec (.jp nnn) s = .next t ∧ t.pc = nnn.zeroExtend 16 ∧ t.pc.toNat = nnn.toNat ∧
    (∀ r, t.readV r = s.readV r) ∧ t.I = s.I ∧ (∀ a, t.memory.read a = s.memory.read a) ∧
    (∀ px py, t.pixel px py = s.pixel px py) ∧ t.status = s.status ∧
    (fetch t = none ↔ nnn = 0xFFF) ∧
    (s.status = .running → nnn = 0xFFF → step t = .next { t with status := .faulted .fetchOutOfBounds 0xFFF none }) ∧
    (∀ w, s.status = .running → fetch t = some w → decode w = .unimplemented w →
      step t = .next { t with status := .faulted .unimplementedOpcode (nnn.zeroExtend 16) (some w) })) ∧
  (∀ (nnn : Addr12) (s : State), Runs s (.jp nnn) → s.pc = nnn.zeroExtend 16 → step s = .next s)

/-- 42_register_ops.md R73: 6XNN sets V[X] to NN, for every X, VF among them, and changes nothing else but pc. -/
def Obligations.SetRegisterWritesItsByte : Prop :=
  (∀ (x : RegIdx) (nn : Byte), decode (0x6#4 ++ nibble x ++ nn) = .op (.ldV x nn)) ∧
  ∀ (x : RegIdx) (nn : Byte) (s : State), ∃ t, exec (.ldV x nn) s = .next t ∧ t.readV x = nn ∧
    (∀ r, r ≠ x → t.readV r = s.readV r) ∧ t.pc = s.pc + 2 ∧ t.I = s.I ∧
    (∀ a, t.memory.read a = s.memory.read a) ∧ (∀ px py, t.pixel px py = s.pixel px py) ∧ t.status = s.status

/-- 42_register_ops.md R74: 7XNN adds NN to V[X] modulo 256 and records no carry: VF changes only when X is 15. Nothing else
but pc changes. -/
def Obligations.AddRegisterWraps : Prop :=
  (∀ (x : RegIdx) (nn : Byte), decode (0x7#4 ++ nibble x ++ nn) = .op (.addV x nn)) ∧
  ∀ (x : RegIdx) (nn : Byte) (s : State), ∃ t, exec (.addV x nn) s = .next t ∧
    (t.readV x).toNat = ((s.readV x).toNat + nn.toNat) % 256 ∧
    (∀ r, r ≠ x → t.readV r = s.readV r) ∧ t.pc = s.pc + 2 ∧ t.I = s.I ∧
    (∀ a, t.memory.read a = s.memory.read a) ∧ (∀ px py, t.pixel px py = s.pixel px py) ∧ t.status = s.status

/-- 42_register_ops.md, LD I, nnn (R75): ANNN sets I to NNN, with no check of the address, and changes nothing else but pc;
a draw of two or more rows from I = 0xFFF then faults. In that last clause no fetch precedes exec, so that the record's word
is the encoding of the draw is the model's own inference (log entry 3, DEDUCED), not R75's;
`Obligations.SpritePastTheEndFaults` states the record by the fetched word. -/
def Obligations.SetAddressWritesI : Prop :=
  (∀ nnn : Addr12, decode (0xA#4 ++ nnn) = .op (.ldI nnn)) ∧
  ∀ (nnn : Addr12) (s : State), ∃ t, exec (.ldI nnn) s = .next t ∧ t.I = nnn.zeroExtend 16 ∧ t.I.toNat = nnn.toNat ∧
    (∀ r, t.readV r = s.readV r) ∧ t.pc = s.pc + 2 ∧ (∀ a, t.memory.read a = s.memory.read a) ∧
    (∀ px py, t.pixel px py = s.pixel px py) ∧ t.status = s.status ∧
    (nnn = 0xFFF → ∀ (x y : RegIdx) (n : RowCount), 2 ≤ n.val →
      exec (.drw x y n) t = .next { t with status := .faulted .spriteOutOfBounds t.pc (some (encode (.drw x y n))) })

/-! ### Draw-sprite -/

/-- 43_draw.md R77, R78, R79, R82: a draw whose rows lie inside memory flips exactly the pixels under the sprite's set bits:
origin (V[X] mod 64, V[Y] mod 32) from the registers as they were, VF too, bit 7 leftmost, and nothing outside the grid
(the clipping is the spec's D6, the order of reads its D7). -/
def Obligations.DrawFlipsTheCoveredPixels : Prop :=
  ∀ (s : State) (x y : RegIdx) (n : RowCount), SpriteFits s n → ∃ t, exec (.drw x y n) s = .next t ∧
    ∀ px py, (Covered s x y n px py → t.pixel px py = !s.pixel px py) ∧
      (¬ Covered s x y n px py → t.pixel px py = s.pixel px py)

/-- 43_draw.md R80: after a draw that does not fault VF is 1 if an in-grid set bit landed on a pixel that was lit, and 0
otherwise. -/
def Obligations.DrawReportsCollision : Prop :=
  ∀ (s : State) (x y : RegIdx) (n : RowCount), SpriteFits s n → ∃ t, exec (.drw x y n) s = .next t ∧
    ((∃ px py, Covered s x y n px py ∧ s.pixel px py = true) → t.readV VF = 1) ∧
    ((¬ ∃ px py, Covered s x y n px py ∧ s.pixel px py = true) → t.readV VF = 0)

/-- 43_draw.md R83: a draw writes only pixels and VF: never memory, I or V0..V14, and pc only by the advance. It completes
from every state whose rows lie inside memory. -/
def Obligations.DrawFrame : Prop :=
  ∀ (s : State) (x y : RegIdx) (n : RowCount),
    (SpriteFits s n → ∃ t, exec (.drw x y n) s = .next t ∧ t.pc = s.pc + 2 ∧ t.status = s.status) ∧
    ∀ t, exec (.drw x y n) s = .next t → (∀ a, t.memory.read a = s.memory.read a) ∧ t.I = s.I ∧
      (∀ r, r ≠ VF → t.readV r = s.readV r) ∧ (t.pc = s.pc + 2 ∨ t.pc = s.pc ∧ ¬ SpriteFits s n)

/-- 43_draw.md R81: with N = 0 no byte is read, so no check can fail, wherever I points; no pixel changes and VF is 0. -/
def Obligations.DrawOfNoRows : Prop :=
  ∀ (s : State) (x y : RegIdx), ∃ t, exec (.drw x y 0) s = .next t ∧ (∀ px py, t.pixel px py = s.pixel px py) ∧
    t.readV VF = 0 ∧ (∀ r, r ≠ VF → t.readV r = s.readV r) ∧ t.pc = s.pc + 2 ∧ t.I = s.I ∧
    (∀ a, t.memory.read a = s.memory.read a) ∧ t.status = s.status

/-- 43_draw.md section on erase by redraw (R84, which the spec marks as its own derivation): a second draw of the same
sprite at the same place restores the display, and VF is 1 exactly when the first draw lit a pixel. The same word repeated is
such a draw when neither X nor Y is 15. -/
def Obligations.RedrawErases : Prop :=
  ∀ (s t : State) (x y : RegIdx) (n : RowCount), SpriteFits s n → exec (.drw x y n) s = .next t →
    (∀ s' : State, (∀ px py, s'.pixel px py = t.pixel px py) → s'.readV x = s.readV x → s'.readV y = s.readV y →
      s'.I = s.I → (∀ r < n.val, s'.memory.peek (s.I.toNat + r) = s.memory.peek (s.I.toNat + r)) →
      ∃ u, exec (.drw x y n) s' = .next u ∧ (∀ px py, u.pixel px py = s.pixel px py) ∧
        ((∃ px py, s.pixel px py = false ∧ t.pixel px py = true) → u.readV VF = 1) ∧
        ((¬ ∃ px py, s.pixel px py = false ∧ t.pixel px py = true) → u.readV VF = 0)) ∧
    (x ≠ VF → y ≠ VF → ∃ u, exec (.drw x y n) t = .next u ∧ ∀ px py, u.pixel px py = s.pixel px py)

/-! ### What no instruction does -/

/-- 10_state.md R15: a handler writes only the state its rule lists; VF changes only on a draw, 6FNN and 7FNN. -/
def Obligations.HandlersWriteOnlyTheirOwnState : Prop :=
  ∀ (i : Instr) (s t : State), exec i s = .next t →
    (∀ r, r ∉ Writes i → t.readV r = s.readV r) ∧
    (t.readV VF ≠ s.readV VF → (∃ x y n, i = .drw x y n) ∨ (∃ nn, i = .ldV VF nn) ∨ ∃ nn, i = .addV VF nn) ∧
    (∀ a, t.memory.read a = s.memory.read a) ∧
    ((∀ nnn, i ≠ .ldI nnn) → t.I = s.I) ∧
    (i ≠ .cls → (∀ x y n, i ≠ .drw x y n) → ∀ px py, t.pixel px py = s.pixel px py) ∧
    ((∀ x y n, i ≠ .drw x y n) → t.status = s.status) ∧
    (∀ x y n, i = .drw x y n → SpriteFits s n → t.status = s.status)

/-- 10_state.md section 2, the table of registers read and written (R13): what a register outside the reads column holds
makes no difference to an instruction, but for that register itself, and not even to it where the instruction writes it. -/
def Obligations.UnreadRegistersMakeNoDifference : Prop :=
  ∀ (i : Instr) (s t : State) (r : RegIdx) (b : Byte), r ∉ Reads i → exec i s = .next t →
    ∃ u, exec i (s.setV r b) = .next u ∧ u.pc = t.pc ∧ u.I = t.I ∧ u.memory = t.memory ∧ u.FB = t.FB ∧
      u.status = t.status ∧ (∀ q, q ≠ r → u.readV q = t.readV q) ∧
      (r ∉ Writes i → u.readV r = b ∧ t.readV r = s.readV r) ∧
      (r ∈ Writes i → (∀ x y n, i = .drw x y n → SpriteFits s n) → u.readV r = t.readV r)

/-- 10_state.md R20: only set-address writes I, and only draw-sprite reads it. -/
def Obligations.AddressRegisterServesTheDrawOnly : Prop :=
  (∀ s t : State, step s = .next t → t.I ≠ s.I → ∃ nnn, Runs s (.ldI nnn) ∧ t.I = nnn.zeroExtend 16) ∧
  ∀ (i : Instr) (s t : State) (v : Word), (∀ x y n, i ≠ .drw x y n) → exec i s = .next t →
    ∃ u, exec i { s with I := v } = .next u ∧ { u with I := t.I } = t

/-- 10_state.md R21: a write of I keeps its low 12 bits, which for the only writer's NNN changes nothing; so I stays at
most 0xFFF, with bits 15..12 zero. -/
def Obligations.AddressRegisterStaysTwelveBits : Prop :=
  (∀ (s : State) (v : Word), (s.setI v).I = v &&& 0x0FFF#16 ∧ (s.setI v).I.toNat = v.toNat % 4096) ∧
  (∀ (s : State) (nnn : Addr12), (s.setI (nnn.zeroExtend 16)).I = nnn.zeroExtend 16) ∧
  ∀ s t : State, s.I.toNat ≤ 0xFFF → step s = .next t → t.I.toNat ≤ 0xFFF ∧ t.I >>> 12 = 0

/-- 10_state.md R26: only clear-screen and draw-sprite write the display: clear-screen makes it all unlit, and changes no
Machine State but pc's advance. -/
def Obligations.OnlyClearAndDrawWriteTheDisplay : Prop :=
  (∀ s t : State, step s = .next t → (∃ px py, t.pixel px py ≠ s.pixel px py) →
    Runs s .cls ∨ ∃ x y n, Runs s (.drw x y n)) ∧
  (∀ s t : State, Runs s .cls → step s = .next t → (∀ px py, t.pixel px py = false) ∧ t.pc = s.pc + 2 ∧
    t.memory = s.memory ∧ t.I = s.I ∧ ∀ r, t.readV r = s.readV r) ∧
  (∀ (s t : State) (x y : RegIdx) (n : RowCount), Runs s (.drw x y n) → step s = .next t → SpriteFits s n →
    ∀ px py, t.pixel px py ≠ s.pixel px py ↔ Covered s x y n px py)

/-- 20_memory.md R46: no instruction writes memory, so after any number of ticks every fetch sees the bytes that boot
loaded. -/
def Obligations.MemoryNeverChangesAfterBoot : Prop :=
  (∀ s t : State, step s = .next t → t.memory = s.memory ∧ ∀ a, t.memory.read a = s.memory.read a) ∧
  ∀ (report : ImageReport) (s : State) (k : Nat), boot report = .ok s →
    (ticks k s).memory = s.memory ∧ fetch (ticks k s) = s.memory.readWord (ticks k s).pc.toNat

/-- 10_state.md sections 6 and 9 and 60_exceptions.md R98, taken together: what the display holds makes no difference to any
other part of the machine but VF, and to VF only through a draw. -/
def Obligations.DisplayDoesNotSteerTheMachine : Prop :=
  ∀ (s t : State) (d : Display), step s = .next t →
    ∃ u, step (s.setFB d) = .next u ∧ u.pc = t.pc ∧ u.I = t.I ∧ u.memory = t.memory ∧ u.status = t.status ∧
      (∀ r, r ≠ VF → u.readV r = t.readV r) ∧ ((∀ x y n, ¬ Runs s (.drw x y n)) → u.readV VF = t.readV VF)

/-! ### The invariant -/

/-- Every step keeps the invariant (Safety.lean): memory canonical, pc in 0x000..0x1000 (10_state.md R18), I at most 0xFFF
(R21), and the fault record, if there is one, explained by the state it stands in. -/
def Obligations.EveryStepKeepsTheInvariant : Prop :=
  ∀ s t : State, Inv s → step s = .next t → Inv t

/-- The invariant holds at reset. -/
def Obligations.InvariantHoldsAtReset : Prop := Inv State.reset

/-- The invariant holds of every state boot makes, whatever the image, and after any number of ticks from it. -/
def Obligations.InvariantHoldsOnEveryRun : Prop :=
  ∀ (report : ImageReport) (s : State) (k : Nat), boot report = .ok s → Inv (ticks k s)

/-! ### Reset, boot and the host -/

/-- 10_state.md section 9: the reset values. pc = 0x200 is the spec's decision D1, the unlit display its D23 and Running its
D4; zero memory, I and registers are its source's own. -/
def Obligations.ResetValues : Prop :=
  (∀ a, a ≤ 0xFFF → State.reset.memory.read a = some 0) ∧ State.reset.pc = 0x200 ∧ State.reset.I = 0 ∧
  (∀ r, State.reset.readV r = 0) ∧ (∀ px py, State.reset.pixel px py = false) ∧ State.reset.status = .running

/-- 70_reset_and_hazards.md section 1: the image is copied verbatim to 0x200 + i and every byte outside keeps 0x00 (R102). The
last clause, that a boot over any core in hand, one that has not ticked yet too, leaves it unchanged, is the model's choice
(log entry 11, DESIGN CHOICE): R102 forbids a load only from the first tick on. -/
def Obligations.BootLoadsTheImage : Prop :=
  (∀ image : List Byte, image.length ≤ 0xE00 → ∃ s, boot (.bytes image) = .ok s ∧
    (∀ i (h : i < image.length), s.memory.read (0x200 + i) = some image[i]) ∧
    (∀ a, a ≤ 0xFFF → (a < 0x200 ∨ 0x200 + image.length ≤ a) → s.memory.read a = some 0) ∧
    { s with memory := [] } = State.reset) ∧
  (∀ (s : State) (report : ImageReport), (interact (some s) (.boot report)).1 = some s)

/-- 70_reset_and_hazards.md R103, R104: an image of more than 0xE00 bytes and an unreadable one make no core; one of exactly
0xE00 bytes is accepted and fills 0x200..0xFFF. -/
def Obligations.BootRefuses : Prop :=
  (∀ image : List Byte, image.length > 0xE00 → boot (.bytes image) = .error .loadImageTooLarge ∧
    interact none (.boot (.bytes image)) = (none, .bootFailed .loadImageTooLarge)) ∧
  (boot .unreadable = .error .loadIOError ∧ interact none (.boot .unreadable) = (none, .bootFailed .loadIOError)) ∧
  (∀ image : List Byte, image.length = 0xE00 → ∃ s, boot (.bytes image) = .ok s ∧
    ∀ i (h : i < image.length), s.memory.read (0x200 + i) = some image[i])

/-- 70_reset_and_hazards.md section 1 (R105, which the spec marks as its own derivation): the empty image boots, and the
first tick faults on the word 0000 at 0x200. -/
def Obligations.EmptyImageFaultsAtOnce : Prop :=
  ∃ s, boot (.bytes []) = .ok s ∧ s = State.reset ∧
    step s = .next { s with status := .faulted .unimplementedOpcode 0x200 (some 0) }

/-- 00_scope.md section 5, the host's interactions: a tick is one step, the two outputs read and change nothing, terminate
discards the core, and without a core only boot is there. The answer notOffered is the model's choice (log entry 11). -/
def Obligations.HostOnlyBootsTicksAndReads : Prop :=
  (∀ s t : State, step s = .next t → interact (some s) .tick = (some t, .done)) ∧
  (∀ s : State, interact (some s) .fbOut = (some s, .display s.FB) ∧
    interact (some s) .statusOut = (some s, .status s.status) ∧ interact (some s) .terminate = (none, .done)) ∧
  (∀ action : HostAction, (∀ report, action ≠ .boot report) → interact none action = (none, .notOffered))
end

