-- ==== Sys2Proof/Laws/Display.lean ====
section
/-! SUPPORT. The display's access operations: read after write, the clear display, and when two displays are the same. -/

namespace Sys2Proof.Machine

variable (d : Display) (x x' : Fin Config.width) (y y' : Fin Config.height) (b : Bool)

theorem Display.read_write : (d.write x y b).read x' y' = if x' = x ∧ y' = y then b else d.read x' y' := by
  simp only [Display.read, Display.write, Fin.getElem_fin, Vector.getElem_set, Fin.ext_iff]
  by_cases hy : y.val = y'.val
  · by_cases hx : x.val = x'.val <;> simp [hy, hx, eq_comm]
  · simp [hy, Ne.symm hy]

@[simp] theorem Display.read_write_same : (d.write x y b).read x y = b := by
  simp [Display.read_write]

@[simp] theorem Display.read_unlit : Display.unlit.read x y = false := by
  simp [Display.read, Display.unlit]

/-- Displays with the same pixels are the same display. -/
theorem Display.ext_read {d e : Display} (h : ∀ x y, d.read x y = e.read x y) : d = e := by
  apply Vector.ext
  intro j hj
  apply Vector.ext
  intro i hi
  exact h ⟨i, hi⟩ ⟨j, hj⟩

end Sys2Proof.Machine
end

