-- ==== Sys2Proof/Laws/Memory.lean ====
section
/-! SUPPORT. The memory operations: read after write, the canonical form that every operation keeps, that canonical
memories with the same bytes are equal, and what each port answers. -/

namespace Sys2Proof.Machine

variable {m : Memory} {a : Nat}

/-! ### The canonical form -/

theorem Memory.wf_iff : m.wf = true ↔
    m.Pairwise (fun p q => p.1 < q.1) ∧ ∀ p ∈ m, p.1 < Config.memSize ∧ p.2 ≠ 0#8 := by
  simp [Memory.wf]

theorem Memory.wf_cons {k : Nat} {c : Byte} : Memory.wf ((k, c) :: m) = true ↔
    (∀ q ∈ m, k < q.1) ∧ (k < Config.memSize ∧ c ≠ 0#8) ∧ m.wf = true := by
  simp only [Memory.wf_iff, List.pairwise_cons, List.forall_mem_cons]
  tauto

theorem Memory.mem_poke {b : Byte} {p : Host.Cell} (h : p ∈ m.poke a b) : p ∈ m ∨ p = (a, b) ∧ b ≠ 0#8 := by
  induction m with
  | nil => by_cases hb : b = 0#8 <;> simp_all [Memory.poke]
  | cons q m ih =>
    obtain ⟨k, c⟩ := q
    by_cases hb : b = 0#8 <;> simp only [Memory.poke, hb, if_true, if_false] at h ih ⊢ <;>
      split at h <;> try split at h
    all_goals simp only [List.mem_cons] at h ⊢
    all_goals tauto

/-- Storing a byte inside the space keeps the canonical form. -/
theorem Memory.wf_poke (hm : m.wf = true) (ha : a < Config.memSize) (b : Byte) : (m.poke a b).wf = true := by
  induction m with
  | nil => by_cases hb : b = 0#8 <;> simp_all [Memory.poke, Memory.wf]
  | cons q m ih =>
    obtain ⟨k, c⟩ := q
    obtain ⟨hk, hc, hm'⟩ := Memory.wf_cons.1 hm
    simp only [Memory.poke]
    by_cases h1 : a < k
    · by_cases hb : b = 0#8
      · simp [h1, hb, hm]
      · have : ∀ q ∈ (k, c) :: m, a < q.1 := by
          simp only [List.forall_mem_cons]
          exact ⟨h1, fun q hq => h1.trans (hk q hq)⟩
        simp only [h1, hb, if_true, if_false]
        exact Memory.wf_cons.2 ⟨this, ⟨ha, hb⟩, hm⟩
    · by_cases h2 : a = k
      · by_cases hb : b = 0#8
        · simp [h2, hb, hm']
        · simp only [h2, hb, lt_irrefl, if_true, if_false]
          exact Memory.wf_cons.2 ⟨hk, ⟨h2 ▸ ha, hb⟩, hm'⟩
      · simp only [h1, h2, if_false]
        refine Memory.wf_cons.2 ⟨fun q hq => ?_, hc, ih hm'⟩
        obtain hq | ⟨rfl, -⟩ := Memory.mem_poke hq
        · exact hk q hq
        · show k < a
          omega

/-- The load port keeps the canonical form as long as the image fits. -/
theorem Memory.wf_load (image : List Byte) (hm : m.wf = true) (h : a + image.length ≤ Config.memSize) :
    (m.load a image).wf = true := by
  induction image generalizing m a with
  | nil => exact hm
  | cons b image ih =>
    simp only [List.length_cons] at h
    exact ih (Memory.wf_poke hm (by omega) b) (by omega)

theorem reset_memory_wf : State.reset.memory.wf = true := rfl

/-! ### Read after write -/

theorem Memory.peek_eq_zero (h : ∀ p ∈ m, a < p.1) : m.peek a = 0#8 := by
  induction m with
  | nil => rfl
  | cons q m ih =>
    simp only [List.forall_mem_cons] at h
    have : ¬ q.1 = a := by omega
    simp [Memory.peek, this, ih h.2]

theorem Memory.peek_poke (hm : m.wf = true) (a : Nat) (b : Byte) (a' : Nat) :
    (m.poke a b).peek a' = if a' = a then b else m.peek a' := by
  induction m with
  | nil =>
    rcases eq_or_ne a a' with rfl | h
    · by_cases hb : b = 0#8 <;> simp [Memory.poke, Memory.peek, hb]
    · by_cases hb : b = 0#8 <;> simp [Memory.poke, Memory.peek, hb, h, h.symm]
  | cons q m ih =>
    obtain ⟨k, c⟩ := q
    obtain ⟨hk, -, hm'⟩ := Memory.wf_cons.1 hm
    have hlow : ∀ a, a < k → Memory.peek ((k, c) :: m) a = 0#8 := fun a ha =>
      Memory.peek_eq_zero (List.forall_mem_cons.2 ⟨ha, fun q hq => ha.trans (hk q hq)⟩)
    simp only [Memory.poke]
    by_cases h1 : a < k
    · by_cases hb : b = 0#8
      · by_cases h : a' = a
        · simp [h1, hb, h, hlow a h1]
        · simp [h1, hb, h]
      · rcases eq_or_ne a a' with rfl | h
        · simp [h1, hb, Memory.peek]
        · simp [h1, hb, h, h.symm, Memory.peek]
    · by_cases h2 : a = k
      · subst h2
        by_cases hb : b = 0#8
        · by_cases h : a' = a
          · subst h
            simp [hb, Memory.peek_eq_zero hk]
          · simp [hb, h, Memory.peek, Ne.symm h]
        · by_cases h : a' = a
          · simp [hb, h, Memory.peek]
          · simp [hb, h, Memory.peek, Ne.symm h]
      · by_cases h : a' = k
        · subst h
          simp [h1, h2, Memory.peek, Ne.symm h2]
        · simp [h1, h2, Memory.peek, Ne.symm h, ih hm']

theorem Memory.peek_poke_same (hm : m.wf = true) (a : Nat) (b : Byte) : (m.poke a b).peek a = b := by
  simp [Memory.peek_poke hm]

/-- What the load port leaves: byte i of the image at a + i, every other byte as it was (20_memory.md R40). -/
theorem Memory.peek_load (image : List Byte) (hm : m.wf = true) (h : a + image.length ≤ Config.memSize) (a' : Nat) :
    (m.load a image).peek a' = if a ≤ a' then (image[a' - a]?).getD (m.peek a') else m.peek a' := by
  induction image generalizing m a with
  | nil => simp [Memory.load]
  | cons b image ih =>
    simp only [List.length_cons] at h
    rw [Memory.load, ih (Memory.wf_poke hm (by omega) b) (by omega), Memory.peek_poke hm]
    by_cases h1 : a' < a
    · have : ¬ a + 1 ≤ a' := by omega
      have : ¬ a ≤ a' := by omega
      have : a' ≠ a := by omega
      simp [*]
    · by_cases h2 : a' = a
      · simp [h2]
      · have h3 : a' - a = (a' - (a + 1)) + 1 := by omega
        have : a + 1 ≤ a' := by omega
        have : a ≤ a' := by omega
        simp [*]

/-! ### Equal bytes, equal memory -/

/-- In the canonical form a memory is its bytes. -/
theorem Memory.ext_peek {m' : Memory} (hm : m.wf = true) (hm' : m'.wf = true) (h : ∀ a, m.peek a = m'.peek a) :
    m = m' := by
  induction m generalizing m' with
  | nil =>
    cases m' with
    | nil => rfl
    | cons q m' =>
      have := h q.1
      have := (Memory.wf_cons.1 hm').2.1.2
      simp_all [Memory.peek]
  | cons p m ih =>
    obtain ⟨k, c⟩ := p
    obtain ⟨hk, ⟨-, hc⟩, hw⟩ := Memory.wf_cons.1 hm
    cases m' with
    | nil =>
      have := h k
      simp_all [Memory.peek]
    | cons q m' =>
      obtain ⟨k', c'⟩ := q
      obtain ⟨hk', ⟨-, hc'⟩, hw'⟩ := Memory.wf_cons.1 hm'
      have hkk : k = k' := by
        by_contra hne
        rcases Nat.lt_or_gt_of_ne hne with hlt | hlt
        · have h0 := Memory.peek_eq_zero (m := (k', c') :: m') (a := k)
            (List.forall_mem_cons.2 ⟨hlt, fun q hq => hlt.trans (hk' q hq)⟩)
          have := h k
          rw [h0] at this
          simp [Memory.peek] at this
          exact hc this
        · have h0 := Memory.peek_eq_zero (m := (k, c) :: m) (a := k')
            (List.forall_mem_cons.2 ⟨hlt, fun q hq => hlt.trans (hk q hq)⟩)
          have := h k'
          rw [h0] at this
          simp [Memory.peek] at this
          exact hc' this.symm
      subst hkk
      have hcc : c = c' := by simpa [Memory.peek] using h k
      subst hcc
      congr 1
      refine ih hw hw' fun a => ?_
      by_cases ha : k = a
      · subst ha
        rw [Memory.peek_eq_zero hk, Memory.peek_eq_zero hk']
      · simpa [Memory.peek, ha] using h a

/-! ### The ports -/

theorem Memory.read_eq_some {b : Byte} : m.read a = some b ↔ a < Config.memSize ∧ m.peek a = b := by
  simp [Memory.read]

theorem Memory.readWord_eq_none : m.readWord a = none ↔ a + 1 > 0xFFF := by
  simp [Memory.readWord]

theorem Memory.readWord_eq_some {w : Word} :
    m.readWord a = some w ↔ a + 1 ≤ 0xFFF ∧ wordOfBytes (m.peek a) (m.peek (a + 1)) = w := by
  simp [Memory.readWord]

/-- The sprite port answers exactly when no row lies past 0xFFF, and then row r is the byte at base + r (20_memory.md R39,
43_draw.md R78). -/
theorem Memory.readRows_cases (m : Memory) (base n : Nat) :
    (0 < n ∧ base + n > Config.memSize ∧ m.readRows base n = none) ∨
    ((n = 0 ∨ base + n ≤ Config.memSize) ∧
      m.readRows base n = some ((List.range n).map (fun r => m.peek (base + r)))) := by
  induction n generalizing base with
  | zero => simp [Memory.readRows]
  | succ n ih =>
    have hr : (List.range (n + 1)).map (fun r => m.peek (base + r)) =
        m.peek base :: (List.range n).map (fun r => m.peek (base + 1 + r)) := by
      simp [List.range_succ_eq_map, Nat.add_assoc, Nat.add_comm 1]
    by_cases hb : base < Config.memSize
    · rcases ih (base + 1) with ⟨h0, h1, h2⟩ | ⟨h1, h2⟩
      · left
        refine ⟨by omega, by omega, ?_⟩
        simp [Memory.readRows, h2]
      · right
        refine ⟨by simp only [Config.memSize] at *; omega, ?_⟩
        rw [hr]
        simp only [Memory.readRows, h2, Memory.read, hb, if_true]
    · left
      refine ⟨by omega, by omega, ?_⟩
      simp only [Memory.readRows, Memory.read, hb, if_false]

theorem Memory.readRows_eq_none {base n : Nat} : m.readRows base n = none ↔ 0 < n ∧ base + n > Config.memSize := by
  rcases Memory.readRows_cases m base n with ⟨h0, h1, h2⟩ | ⟨h1, h2⟩ <;> simp [h2] <;>
    simp only [Config.memSize] at * <;> omega

theorem Memory.readRows_eq_some {base n : Nat} {rows : List Byte} (h : m.readRows base n = some rows) :
    rows = (List.range n).map (fun r => m.peek (base + r)) := by
  rcases Memory.readRows_cases m base n with ⟨-, -, h2⟩ | ⟨-, h2⟩ <;> simp_all

end Sys2Proof.Machine
end

