-- ==== Sys2Proof/Laws/State.lean ====
section
/-! SUPPORT. What each update of State does to each field, and the registers and pixels seen through their accessors. -/

namespace Sys2Proof.Machine

variable (s : State)

/-! ### setV -/

@[simp] theorem State.setV_memory (r : RegIdx) (b : Byte) : (s.setV r b).memory = s.memory := rfl
@[simp] theorem State.setV_pc (r : RegIdx) (b : Byte) : (s.setV r b).pc = s.pc := rfl
@[simp] theorem State.setV_I (r : RegIdx) (b : Byte) : (s.setV r b).I = s.I := rfl
@[simp] theorem State.setV_V (r : RegIdx) (b : Byte) : (s.setV r b).V = s.V.set r b := rfl
@[simp] theorem State.setV_FB (r : RegIdx) (b : Byte) : (s.setV r b).FB = s.FB := rfl
@[simp] theorem State.setV_status (r : RegIdx) (b : Byte) : (s.setV r b).status = s.status := rfl

/-! ### setPc -/

@[simp] theorem State.setPc_memory (a : Word) : (s.setPc a).memory = s.memory := rfl
@[simp] theorem State.setPc_pc (a : Word) : (s.setPc a).pc = a := rfl
@[simp] theorem State.setPc_I (a : Word) : (s.setPc a).I = s.I := rfl
@[simp] theorem State.setPc_V (a : Word) : (s.setPc a).V = s.V := rfl
@[simp] theorem State.setPc_FB (a : Word) : (s.setPc a).FB = s.FB := rfl
@[simp] theorem State.setPc_status (a : Word) : (s.setPc a).status = s.status := rfl

/-! ### setI -/

@[simp] theorem State.setI_memory (v : Word) : (s.setI v).memory = s.memory := rfl
@[simp] theorem State.setI_pc (v : Word) : (s.setI v).pc = s.pc := rfl
@[simp] theorem State.setI_I (v : Word) : (s.setI v).I = v &&& 0x0FFF#16 := rfl
@[simp] theorem State.setI_V (v : Word) : (s.setI v).V = s.V := rfl
@[simp] theorem State.setI_FB (v : Word) : (s.setI v).FB = s.FB := rfl
@[simp] theorem State.setI_status (v : Word) : (s.setI v).status = s.status := rfl

/-! ### setFB -/

@[simp] theorem State.setFB_memory (d : Display) : (s.setFB d).memory = s.memory := rfl
@[simp] theorem State.setFB_pc (d : Display) : (s.setFB d).pc = s.pc := rfl
@[simp] theorem State.setFB_I (d : Display) : (s.setFB d).I = s.I := rfl
@[simp] theorem State.setFB_V (d : Display) : (s.setFB d).V = s.V := rfl
@[simp] theorem State.setFB_FB (d : Display) : (s.setFB d).FB = d := rfl
@[simp] theorem State.setFB_status (d : Display) : (s.setFB d).status = s.status := rfl

/-! ### advance -/

@[simp] theorem advance_memory : (advance s).memory = s.memory := rfl
@[simp] theorem advance_pc : (advance s).pc = s.pc + 2 := rfl
@[simp] theorem advance_I : (advance s).I = s.I := rfl
@[simp] theorem advance_V : (advance s).V = s.V := rfl
@[simp] theorem advance_FB : (advance s).FB = s.FB := rfl
@[simp] theorem advance_status : (advance s).status = s.status := rfl

/-! ### raiseFault -/

@[simp] theorem raiseFault_memory (c : FaultCode) (a : Word) (w : Option Word) : (raiseFault s c a w).memory = s.memory := rfl
@[simp] theorem raiseFault_pc (c : FaultCode) (a : Word) (w : Option Word) : (raiseFault s c a w).pc = s.pc := rfl
@[simp] theorem raiseFault_I (c : FaultCode) (a : Word) (w : Option Word) : (raiseFault s c a w).I = s.I := rfl
@[simp] theorem raiseFault_V (c : FaultCode) (a : Word) (w : Option Word) : (raiseFault s c a w).V = s.V := rfl
@[simp] theorem raiseFault_FB (c : FaultCode) (a : Word) (w : Option Word) : (raiseFault s c a w).FB = s.FB := rfl
@[simp] theorem raiseFault_status (c : FaultCode) (a : Word) (w : Option Word) : (raiseFault s c a w).status = .faulted c a w := rfl

/-! ### takeFetchFault -/

@[simp] theorem takeFetchFault_memory : (takeFetchFault s).memory = s.memory := rfl
@[simp] theorem takeFetchFault_pc : (takeFetchFault s).pc = s.pc := rfl
@[simp] theorem takeFetchFault_I : (takeFetchFault s).I = s.I := rfl
@[simp] theorem takeFetchFault_V : (takeFetchFault s).V = s.V := rfl
@[simp] theorem takeFetchFault_FB : (takeFetchFault s).FB = s.FB := rfl
@[simp] theorem takeFetchFault_status : (takeFetchFault s).status = .faulted .fetchOutOfBounds s.pc none := rfl

/-! ### takeUnimplemented -/

@[simp] theorem takeUnimplemented_memory (w : Word) : (takeUnimplemented s w).memory = s.memory := rfl
@[simp] theorem takeUnimplemented_pc (w : Word) : (takeUnimplemented s w).pc = s.pc := rfl
@[simp] theorem takeUnimplemented_I (w : Word) : (takeUnimplemented s w).I = s.I := rfl
@[simp] theorem takeUnimplemented_V (w : Word) : (takeUnimplemented s w).V = s.V := rfl
@[simp] theorem takeUnimplemented_FB (w : Word) : (takeUnimplemented s w).FB = s.FB := rfl
@[simp] theorem takeUnimplemented_status (w : Word) : (takeUnimplemented s w).status = .faulted .unimplementedOpcode s.pc (some w) := rfl

/-! ### takeSpriteFault -/

@[simp] theorem takeSpriteFault_memory (i : Instr) : (takeSpriteFault s i).memory = s.memory := rfl
@[simp] theorem takeSpriteFault_pc (i : Instr) : (takeSpriteFault s i).pc = s.pc := rfl
@[simp] theorem takeSpriteFault_I (i : Instr) : (takeSpriteFault s i).I = s.I := rfl
@[simp] theorem takeSpriteFault_V (i : Instr) : (takeSpriteFault s i).V = s.V := rfl
@[simp] theorem takeSpriteFault_FB (i : Instr) : (takeSpriteFault s i).FB = s.FB := rfl
@[simp] theorem takeSpriteFault_status (i : Instr) : (takeSpriteFault s i).status = .faulted .spriteOutOfBounds s.pc (some (encode i)) := rfl

/-! ### setCollisionFlag -/

@[simp] theorem setCollisionFlag_memory (c : Bool) : (setCollisionFlag s c).memory = s.memory := rfl
@[simp] theorem setCollisionFlag_pc (c : Bool) : (setCollisionFlag s c).pc = s.pc := rfl
@[simp] theorem setCollisionFlag_I (c : Bool) : (setCollisionFlag s c).I = s.I := rfl
@[simp] theorem setCollisionFlag_V (c : Bool) : (setCollisionFlag s c).V = s.V.set VF (collisionByte c) := rfl
@[simp] theorem setCollisionFlag_FB (c : Bool) : (setCollisionFlag s c).FB = s.FB := rfl
@[simp] theorem setCollisionFlag_status (c : Bool) : (setCollisionFlag s c).status = s.status := rfl

/-! ### Registers -/

@[simp] theorem State.readV_setV_same (r : RegIdx) (b : Byte) : (s.setV r b).readV r = b := by
  simp [State.readV]

theorem State.readV_setV_of_ne {r q : RegIdx} (h : q ≠ r) (b : Byte) : (s.setV r b).readV q = s.readV q := by
  simp [State.readV, Fin.val_inj, h.symm]

theorem State.readV_setV (r q : RegIdx) (b : Byte) : (s.setV r b).readV q = if q = r then b else s.readV q := by
  by_cases h : q = r
  · subst h; simp
  · simp [h, State.readV_setV_of_ne s h]

@[simp] theorem State.readV_setPc (a : Word) (r : RegIdx) : (s.setPc a).readV r = s.readV r := rfl
@[simp] theorem State.readV_setI (v : Word) (r : RegIdx) : (s.setI v).readV r = s.readV r := rfl
@[simp] theorem State.readV_setFB (d : Display) (r : RegIdx) : (s.setFB d).readV r = s.readV r := rfl
@[simp] theorem readV_advance (r : RegIdx) : (advance s).readV r = s.readV r := rfl
@[simp] theorem readV_raiseFault (c : FaultCode) (a : Word) (w : Option Word) (r : RegIdx) :
    (raiseFault s c a w).readV r = s.readV r := rfl

theorem readV_setCollisionFlag (c : Bool) (r : RegIdx) :
    (setCollisionFlag s c).readV r = if r = VF then collisionByte c else s.readV r :=
  s.readV_setV VF r _

/-- Registers with the same contents are the same register file. -/
theorem State.V_ext {s t : State} (h : ∀ r, s.readV r = t.readV r) : s.V = t.V := by
  apply Vector.ext
  intro i hi
  exact h ⟨i, hi⟩

/-! ### Pixels -/

@[simp] theorem State.pixel_setV (r : RegIdx) (b : Byte) (x : Fin Config.width) (y : Fin Config.height) :
    (s.setV r b).pixel x y = s.pixel x y := rfl
@[simp] theorem State.pixel_setFB (d : Display) (x : Fin Config.width) (y : Fin Config.height) :
    (s.setFB d).pixel x y = d.read x y := rfl
@[simp] theorem pixel_advance (x : Fin Config.width) (y : Fin Config.height) :
    (advance s).pixel x y = s.pixel x y := rfl
@[simp] theorem pixel_setCollisionFlag (c : Bool) (x : Fin Config.width) (y : Fin Config.height) :
    (setCollisionFlag s c).pixel x y = s.pixel x y := rfl

end Sys2Proof.Machine
end

