-- ==== Sys2Proof/Laws/Draw.lean ====
section
/-! SUPPORT. What the draw engine does to each pixel and to the collision flag: the loops of Machine/Draw.lean flip exactly
the pixels under the sprite's set bits, and collide exactly on those that were lit before the draw (43_draw.md R78 to R80,
R86). -/

namespace Sys2Proof.Machine

variable (k : Canvas) (x : Fin Config.width) (y : Fin Config.height)

/-! ### One pixel -/

theorem xorPixel_read (px py : Nat) :
    (xorPixel k px py).FB.read x y = (k.FB.read x y ^^ decide (x.val = px ∧ y.val = py)) := by
  unfold xorPixel
  split
  · rename_i h
    simp only [Display.read_write, Fin.ext_iff]
    by_cases hxy : x.val = px ∧ y.val = py
    · obtain ⟨rfl, rfl⟩ := hxy
      simp
    · simp [hxy]
  · rename_i h
    have : ¬ (x.val = px ∧ y.val = py) := fun ⟨hx, hy⟩ => h ⟨hx ▸ x.isLt, hy ▸ y.isLt⟩
    simp [this]

theorem xorPixel_collision (px py : Nat) : (xorPixel k px py).collision = true ↔
    k.collision = true ∨ ∃ x y, (x.val = px ∧ y.val = py) ∧ k.FB.read x y = true := by
  unfold xorPixel
  split
  · rename_i h
    simp only [Bool.or_eq_true]
    refine or_congr_right ⟨fun hr => ⟨_, _, ⟨rfl, rfl⟩, hr⟩, ?_⟩
    rintro ⟨x, y, ⟨rfl, rfl⟩, hr⟩
    exact hr
  · rename_i h
    refine ⟨Or.inl, Or.rec id ?_⟩
    rintro ⟨x, y, ⟨rfl, rfl⟩, -⟩
    exact absurd ⟨x.isLt, y.isLt⟩ h

/-! ### The columns of a row -/

/-- The first `c` columns of a row drawn from x0 have a set bit in display column `x`. -/
def rowCovers (row : Byte) (x0 c x : Nat) : Bool := decide (x0 ≤ x ∧ x < x0 + c) && row.getLsbD (7 - (x - x0))

theorem rowCovers_succ (row : Byte) (x0 c x : Nat) :
    rowCovers row x0 (c + 1) x = (rowCovers row x0 c x ^^ (decide (x = x0 + c) && row.getLsbD (7 - c))) := by
  by_cases h : x = x0 + c
  · subst h
    simp [rowCovers]
  · have : (x0 ≤ x ∧ x < x0 + (c + 1)) ↔ (x0 ≤ x ∧ x < x0 + c) := by omega
    simp [rowCovers, h, this]

theorem drawColumns_read (row : Byte) (x0 py c : Nat) : (drawColumns row x0 py c k).FB.read x y =
    (k.FB.read x y ^^ (decide (y.val = py) && rowCovers row x0 c x)) := by
  induction c with
  | zero => simp [drawColumns, rowCovers, show ¬ (x0 ≤ x.val ∧ x.val < x0) by omega]
  | succ c ih =>
    simp only [drawColumns, rowCovers_succ]
    split <;> rename_i h
    · simp only [xorPixel_read, ih, h, Bool.and_true, Bool.decide_and]
      cases k.FB.read x y <;> cases decide (y.val = py) <;> cases decide (x.val = x0 + c) <;>
        cases rowCovers row x0 c x <;> rfl
    · simp [ih, h]

theorem drawColumns_collision (row : Byte) (x0 py c : Nat) : (drawColumns row x0 py c k).collision = true ↔
    k.collision = true ∨ ∃ (x : Fin Config.width) (y : Fin Config.height),
      (y.val = py ∧ rowCovers row x0 c x = true) ∧ k.FB.read x y = true := by
  induction c with
  | zero =>
    have : ∀ x, rowCovers row x0 0 x = false := fun x => by
      simp [rowCovers, show ¬ (x0 ≤ x ∧ x < x0) by omega]
    simp [drawColumns, this]
  | succ c ih =>
    have old : rowCovers row x0 c (x0 + c) = false := by simp [rowCovers]
    simp only [drawColumns]
    split <;> rename_i h
    · rw [xorPixel_collision, ih, or_assoc]
      refine or_congr_right ⟨?_, ?_⟩
      · rintro (⟨x, y, ⟨hy, hc⟩, hr⟩ | ⟨x, y, ⟨hx, hy⟩, hr⟩)
        · have : x.val ≠ x0 + c := fun hx => by simp [hx, old] at hc
          exact ⟨x, y, ⟨hy, by simp [rowCovers_succ, hc, this]⟩, hr⟩
        · rw [drawColumns_read, hx, old] at hr
          exact ⟨x, y, ⟨hy, by simp [rowCovers_succ, old, hx, h]⟩, by simpa using hr⟩
      · rintro ⟨x, y, ⟨hy, hc⟩, hr⟩
        by_cases hx : x.val = x0 + c
        · exact .inr ⟨x, y, ⟨hx, hy⟩, by simp [drawColumns_read, hx, old, hr]⟩
        · exact .inl ⟨x, y, ⟨hy, by simpa [rowCovers_succ, hx] using hc⟩, hr⟩
    · rw [ih]
      simp [rowCovers_succ, h]

/-! ### The rows of a sprite -/

/-- Some row of a sprite drawn from (x0, py) has a set bit at display position (x, y). -/
def rowsCover (x0 py : Nat) : List Byte → Nat → Nat → Bool
  | [], _, _ => false
  | row :: rows, x, y => (decide (y = py) && rowCovers row x0 8 x) ^^ rowsCover x0 (py + 1) rows x y

/-- Nothing of a sprite lies above its first row. -/
theorem rowsCover_above {x0 py : Nat} (rows : List Byte) {x y : Nat} (h : y < py) : rowsCover x0 py rows x y = false := by
  induction rows generalizing py with
  | nil => rfl
  | cons row rows ih => simp [rowsCover, show y ≠ py by omega, ih (show y < py + 1 by omega)]

/-- The sprite covers (x, y) exactly when some row r and column c of it lie there with a set bit (43_draw.md R78, R86). -/
theorem rowsCover_iff {x0 py : Nat} {rows : List Byte} {x y : Nat} : rowsCover x0 py rows x y = true ↔
    ∃ r c, ∃ h : r < rows.length, c < 8 ∧ x = x0 + c ∧ y = py + r ∧ rows[r].getLsbD (7 - c) = true := by
  induction rows generalizing py with
  | nil => simp [rowsCover]
  | cons row rows ih =>
    rcases Nat.lt_trichotomy y py with hy | rfl | hy
    · rw [rowsCover_above _ hy]
      refine ⟨by simp, ?_⟩
      rintro ⟨r, c, -, -, -, h, -⟩
      omega
    · rw [rowsCover, rowsCover_above _ (Nat.lt_succ_self y)]
      simp only [decide_true, Bool.true_and, Bool.xor_false, rowCovers, Bool.and_eq_true, decide_eq_true_eq]
      constructor
      · rintro ⟨⟨h1, h2⟩, h3⟩
        exact ⟨0, x - x0, by simp, by omega, by omega, by omega, by simpa using h3⟩
      · rintro ⟨r, c, hr, hc, rfl, h, hb⟩
        obtain rfl : r = 0 := by omega
        exact ⟨by omega, by simpa using hb⟩
    · simp only [rowsCover, show y ≠ py by omega, decide_false, Bool.false_and, Bool.false_xor, ih]
      constructor
      · rintro ⟨r, c, hr, hc, hx, h, hb⟩
        exact ⟨r + 1, c, by simpa using hr, hc, hx, by omega, by simpa using hb⟩
      · rintro ⟨r, c, hr, hc, hx, h, hb⟩
        obtain ⟨r, rfl⟩ : ∃ r', r = r' + 1 := ⟨r - 1, by omega⟩
        exact ⟨r, c, by simpa using hr, hc, hx, by omega, by simpa using hb⟩

theorem drawRows_read (x0 py : Nat) (rows : List Byte) : (drawRows x0 py rows k).FB.read x y =
    (k.FB.read x y ^^ rowsCover x0 py rows x y) := by
  induction rows generalizing py k with
  | nil => simp [drawRows, rowsCover]
  | cons row rows ih => simp [drawRows, rowsCover, ih, drawColumns_read]

theorem drawRows_collision (x0 py : Nat) (rows : List Byte) : (drawRows x0 py rows k).collision = true ↔
    k.collision = true ∨ ∃ x y, rowsCover x0 py rows x.val y.val = true ∧ k.FB.read x y = true := by
  induction rows generalizing py k with
  | nil => simp [drawRows, rowsCover]
  | cons row rows ih =>
    rw [drawRows, ih, drawColumns_collision, or_assoc]
    refine or_congr_right ⟨?_, ?_⟩
    · rintro (⟨x, y, ⟨hy, hc⟩, hr⟩ | ⟨x, y, hc, hr⟩)
      · exact ⟨x, y, by simp [rowsCover, hy, hc, rowsCover_above rows (Nat.lt_succ_self py)], hr⟩
      · have hy : y.val ≠ py := fun hy => by
          rw [hy, rowsCover_above rows (Nat.lt_succ_self py)] at hc
          exact absurd hc (by simp)
        refine ⟨x, y, by simpa [rowsCover, hy] using hc, ?_⟩
        simpa [drawColumns_read, hy] using hr
    · rintro ⟨x, y, hc, hr⟩
      by_cases hy : y.val = py
      · refine .inl ⟨x, y, ⟨hy, ?_⟩, hr⟩
        simpa [rowsCover, hy, rowsCover_above rows (Nat.lt_succ_self py)] using hc
      · exact .inr ⟨x, y, by simpa [rowsCover, hy] using hc, by simp [drawColumns_read, hy, hr]⟩

/-! ### The instruction -/

/-- The rows a draw reads. -/
def rowsOf (s : State) (n : RowCount) : List Byte := (List.range n.val).map (fun r => s.memory.peek (s.I.toNat + r))

/-- The state a draw leaves when its sprite lies inside memory. -/
def drawn (s : State) (x y : RegIdx) (n : RowCount) : State :=
  let k := drawRows (originX s x) (originY s y) (rowsOf s n) { FB := s.FB, collision := false }
  setCollisionFlag ((advance s).setFB k.FB) k.collision

/-- A draw takes the sprite fault exactly when a row lies past 0xFFF, and draws otherwise (43_draw.md R76, R85). -/
theorem execDrw_cases (x y : RegIdx) (n : RowCount) (s : State) :
    (0 < n.val ∧ s.I.toNat + n.val > 0x1000 ∧ execDrw x y n s = .next (takeSpriteFault s (.drw x y n))) ∨
    ((n.val = 0 ∨ s.I.toNat + n.val ≤ 0x1000) ∧ execDrw x y n s = .next (drawn s x y n)) := by
  rcases s.memory.readRows_cases s.I.toNat n.val with ⟨h0, h1, h2⟩ | ⟨h1, h2⟩
  · exact .inl ⟨h0, h1, by simp only [execDrw, spriteRows, h2]⟩
  · exact .inr ⟨h1, by simp only [execDrw, spriteRows, h2]; rfl⟩

variable (s : State) (rx ry : RegIdx) (n : RowCount)

@[simp] theorem drawn_memory : (drawn s rx ry n).memory = s.memory := rfl
@[simp] theorem drawn_pc : (drawn s rx ry n).pc = s.pc + 2 := rfl
@[simp] theorem drawn_I : (drawn s rx ry n).I = s.I := rfl
@[simp] theorem drawn_status : (drawn s rx ry n).status = s.status := rfl

theorem drawn_readV (r : RegIdx) : (drawn s rx ry n).readV r =
    if r = VF then collisionByte (drawRows (originX s rx) (originY s ry) (rowsOf s n) ⟨s.FB, false⟩).collision
    else s.readV r :=
  readV_setCollisionFlag _ _ r

theorem drawn_pixel : (drawn s rx ry n).pixel x y =
    (s.pixel x y ^^ rowsCover (originX s rx) (originY s ry) (rowsOf s n) x y) :=
  drawRows_read ⟨s.FB, false⟩ x y (originX s rx) (originY s ry) (rowsOf s n)

end Sys2Proof.Machine
end

