-- ==== Sys2Proof/Laws/PerInstr.lean ====
section
/-! SUPPORT. Facts about every instruction as a term, one lemma per constructor. `Listing`: the line that writes it is well
formed and names it again (30_encoding.md R60). `OwnTemplate`: its word matches its own row of the opcode map (R53). -/

namespace Sys2Proof.Laws

namespace Listing

/-- The instruction's line is well formed and stands for the instruction. -/
def Statement (i : Instr) : Prop := i.line.wellFormed = true ∧ i.line.instr? = some i

theorem ofNat_val (x : Fin 16) : Fin.ofNat 16 x.val = x := Fin.ext (Nat.mod_eq_of_lt x.isLt)

theorem cls : Statement .cls := ⟨rfl, rfl⟩

theorem jp (nnn : Addr12) : Statement (.jp nnn) := by
  simp [Statement, Instr.line, AsmLine.wellFormed, AsmLine.instr?, fits, nnn.isLt]

theorem ldV (x : RegIdx) (nn : Byte) : Statement (.ldV x nn) := by
  simp [Statement, Instr.line, AsmLine.wellFormed, AsmLine.instr?, fits, nn.isLt]

theorem addV (x : RegIdx) (nn : Byte) : Statement (.addV x nn) := by
  simp [Statement, Instr.line, AsmLine.wellFormed, AsmLine.instr?, fits, nn.isLt]

theorem ldI (nnn : Addr12) : Statement (.ldI nnn) := by
  simp [Statement, Instr.line, AsmLine.wellFormed, AsmLine.instr?, fits, nnn.isLt]

theorem drw (x y : RegIdx) (n : RowCount) : Statement (.drw x y n) := by
  simp [Statement, Instr.line, AsmLine.wellFormed, AsmLine.instr?, fits]

end Listing

namespace OwnTemplate

/-- The instruction's word matches the template of its row. -/
def Statement (i : Instr) : Prop := i.template.accepts (encode i)

theorem cls : Statement .cls := by
  show (0x00E0#16 : Word) &&& 0xFFFF#16 = 0x00E0#16
  decide

theorem jp (nnn : Addr12) : Statement (.jp nnn) := by
  show (0x1#4 ++ nnn : Word) &&& (0xF#4 ++ 0#12 : Word) = 0x1#4 ++ 0#12
  rw [BitVec.and_append]
  simp

theorem ldV (x : RegIdx) (nn : Byte) : Statement (.ldV x nn) := by
  show (0x6#4 ++ nibble x ++ nn : Word) &&& (0xF#4 ++ 0#4 ++ 0#8 : Word) = 0x6#4 ++ 0#4 ++ 0#8
  rw [BitVec.and_append, BitVec.and_append]
  simp

theorem addV (x : RegIdx) (nn : Byte) : Statement (.addV x nn) := by
  show (0x7#4 ++ nibble x ++ nn : Word) &&& (0xF#4 ++ 0#4 ++ 0#8 : Word) = 0x7#4 ++ 0#4 ++ 0#8
  rw [BitVec.and_append, BitVec.and_append]
  simp

theorem ldI (nnn : Addr12) : Statement (.ldI nnn) := by
  show (0xA#4 ++ nnn : Word) &&& (0xF#4 ++ 0#12 : Word) = 0xA#4 ++ 0#12
  rw [BitVec.and_append]
  simp

theorem drw (x y : RegIdx) (n : RowCount) : Statement (.drw x y n) := by
  show (0xD#4 ++ nibble x ++ nibble y ++ nibble n : Word) &&& (0xF#4 ++ 0#4 ++ 0#4 ++ 0#4 : Word) =
    0xD#4 ++ 0#4 ++ 0#4 ++ 0#4
  rw [BitVec.and_append, BitVec.and_append, BitVec.and_append]
  simp

end OwnTemplate

end Sys2Proof.Laws
end

