-- ==== Sys2Proof/Laws/Step.lean ====
section
/-! SUPPORT. What a meaning and a step can do, said once: a case for each, with what it answers. -/

namespace Sys2Proof.Machine

/-! ### Fetch and decode -/

theorem fetch_eq_none {s : State} : fetch s = none ↔ s.pc.toNat + 1 > 0xFFF := Memory.readWord_eq_none

theorem fetch_eq_some {s : State} {w : Word} : fetch s = some w ↔
    s.pc.toNat + 1 ≤ 0xFFF ∧ wordOfBytes (s.memory.peek s.pc.toNat) (s.memory.peek (s.pc.toNat + 1)) = w :=
  Memory.readWord_eq_some

/-- Two states with the same memory and pc fetch the same. -/
theorem fetch_congr {s t : State} (hm : t.memory = s.memory) (hp : t.pc = s.pc) : fetch t = fetch s := by
  simp [fetch, hm, hp]

theorem advance_pc_toNat {s : State} (h : s.pc.toNat + 1 ≤ 0xFFF) : (advance s).pc.toNat = s.pc.toNat + 2 := by
  rw [advance_pc, BitVec.toNat_add]
  simp
  omega

/-! ### The meanings -/

/-- What an instruction does: a draw whose sprite leaves memory takes the sprite fault; otherwise each instruction makes its
own change after the advance. -/
theorem exec_cases (i : Instr) (s : State) :
    (i = .cls ∧ exec i s = .next ((advance s).setFB Display.unlit)) ∨
    (∃ nnn, i = .jp nnn ∧ exec i s = .next ((advance s).setPc (nnn.zeroExtend 16))) ∨
    (∃ x nn, i = .ldV x nn ∧ exec i s = .next ((advance s).setV x nn)) ∨
    (∃ x nn, i = .addV x nn ∧ exec i s = .next ((advance s).setV x (s.readV x + nn))) ∨
    (∃ nnn, i = .ldI nnn ∧ exec i s = .next ((advance s).setI (nnn.zeroExtend 16))) ∨
    (∃ x y n, i = .drw x y n ∧ (0 < n.val ∧ s.I.toNat + n.val > 0x1000) ∧ exec i s = .next (takeSpriteFault s i)) ∨
    (∃ x y n, i = .drw x y n ∧ (n.val = 0 ∨ s.I.toNat + n.val ≤ 0x1000) ∧ exec i s = .next (drawn s x y n)) := by
  cases i with
  | cls => exact .inl ⟨rfl, rfl⟩
  | jp nnn => exact .inr (.inl ⟨nnn, rfl, rfl⟩)
  | ldV x nn => exact .inr (.inr (.inl ⟨x, nn, rfl, rfl⟩))
  | addV x nn => exact .inr (.inr (.inr (.inl ⟨x, nn, rfl, rfl⟩)))
  | ldI nnn => exact .inr (.inr (.inr (.inr (.inl ⟨nnn, rfl, rfl⟩))))
  | drw x y n =>
    rcases execDrw_cases x y n s with ⟨h0, h1, h⟩ | ⟨h1, h⟩
    · exact .inr (.inr (.inr (.inr (.inr (.inl ⟨x, y, n, rfl, ⟨h0, h1⟩, h⟩)))))
    · exact .inr (.inr (.inr (.inr (.inr (.inr ⟨x, y, n, rfl, h1, h⟩)))))

/-! ### The step -/

/-- What a step does (40_cycle.md R61, 60_exceptions.md R94): nothing in Faulted; in Running the fetch fault, the
unimplemented-opcode fault, or the instruction's meaning. -/
theorem step_cases (s : State) :
    (s.status ≠ .running ∧ step s = .next s) ∨
    (s.status = .running ∧ fetch s = none ∧ step s = .next (takeFetchFault s)) ∨
    (∃ w, s.status = .running ∧ fetch s = some w ∧ decode w = .unimplemented w ∧
      step s = .next (takeUnimplemented s w)) ∨
    (∃ w i, s.status = .running ∧ fetch s = some w ∧ decode w = .op i ∧ step s = exec i s) := by
  cases hst : s.status with
  | faulted c a w => exact .inl ⟨by simp, by simp only [step, hst]; rfl⟩
  | running =>
    cases hf : fetch s with
    | none => exact .inr (.inl ⟨rfl, rfl, by simp only [step, hst, hf]⟩)
    | some w =>
      cases hd : decode w with
      | unimplemented v =>
        obtain rfl := decode_unimplemented hd
        exact .inr (.inr (.inl ⟨v, rfl, rfl, hd, by simp only [step, hst, hf, hd]⟩))
      | op i => exact .inr (.inr (.inr ⟨w, i, rfl, rfl, hd, by simp only [step, hst, hf, hd]⟩))

/-- The word placed for the next fetch is the word fetched, from every state whose memory is in its canonical form. -/
theorem fetch_withFetchWord (s : State) (hm : s.memory.wf = true) (w : Word) :
    fetch (s.withFetchWord 16 w.toNat) = some w := by
  have hpc : (s.withFetchWord 16 w.toNat).pc.toNat + 1 ≤ 0xFFF := by
    simp only [State.withFetchWord]
    split
    · decide
    · omega
  refine fetch_eq_some.2 ⟨hpc, ?_⟩
  have hmem : (s.withFetchWord 16 w.toNat).memory =
      s.memory.load (s.withFetchWord 16 w.toNat).pc.toNat [highByte w, lowByte w] := by
    simp only [State.withFetchWord, tableWord_toNat, bytesOfWord]
  rw [hmem, Memory.peek_load _ hm (by simp only [List.length_cons, List.length_nil, Config.memSize]; omega),
    Memory.peek_load _ hm (by simp only [List.length_cons, List.length_nil, Config.memSize]; omega)]
  simp

end Sys2Proof.Machine
end

