-- ==== Sys2Proof/Tests/Slice0.lean ====
section
/-! SUPPORT. The model's own tests: words written out from the spec's encodings, ill-formed listing lines, at most two steps
an instruction with results from 95_test_vectors.md, and for every statement with hypotheses a state that meets them. -/

namespace Sys2Proof.Tests

open Sys2Proof.Machine Sys2Proof.Claims

/-! ### Small states -/

/-- The reset state with one instruction word at pc. -/
def machine (pc w : Word) : State :=
  { State.reset with memory := Memory.load [] pc.toNat (bytesOfWord w), pc := pc }

/-- The reset state with a draw at 0x200, I = i, V0 = v0, V1 = v1, and sprite bytes at i. -/
def sprite (w i : Word) (v0 v1 : Byte) (rows : List Byte) : State :=
  let s := machine 0x200 w
  ({ s with memory := s.memory.load i.toNat rows, I := i }.setV 0 v0).setV 1 v1

/-- Every pixel lit. -/
def allLit : Display := Vector.replicate Config.height (Vector.replicate Config.width true)

/-! ### Well-formed lines (30_encoding.md R60) -/

theorem test_address_of_13_bits_is_ill_formed :
    (AsmLine.jp 0x1000).wellFormed = false ∧ (AsmLine.ldI 0x1000).wellFormed = false := by decide

theorem test_register_V16_is_ill_formed :
    (AsmLine.ldV 16 0).wellFormed = false ∧ (AsmLine.addV 16 0).wellFormed = false ∧
    (AsmLine.drw 16 0 0).wellFormed = false ∧ (AsmLine.drw 0 16 0).wellFormed = false := by decide

theorem test_byte_of_9_bits_is_ill_formed :
    (AsmLine.ldV 0 256).wellFormed = false ∧ (AsmLine.addV 0 256).wellFormed = false ∧
    (AsmLine.db 256).wellFormed = false := by decide

theorem test_16_rows_are_ill_formed : (AsmLine.drw 0 0 16).wellFormed = false := by decide

/-- The listing of 95_test_vectors.md P2 assembles to its image. -/
theorem test_listing_P2 :
    assemble [.ldI 0x20A, .ldV 0 5, .ldV 1 3, .drw 0 1 2, .jp 0x208, .db 0xF0, .db 0x90] =
      some [0xA2, 0x0A, 0x60, 0x05, 0x61, 0x03, 0xD0, 0x12, 0x12, 0x08, 0xF0, 0x90] := by decide

/-! ### Words written out bit by bit (30_encoding.md R53) -/

theorem test_decode_cls : decode 0b0000000011100000#16 = .op .cls := by decide
theorem test_decode_jp : decode 0b0001101010111100#16 = .op (.jp 0xABC) := by decide
theorem test_decode_ldV : decode 0b0110101001000010#16 = .op (.ldV 10 0x42) := by decide
theorem test_decode_addV : decode 0b0111111100000001#16 = .op (.addV 15 1) := by decide
theorem test_decode_ldI : decode 0b1010001000001010#16 = .op (.ldI 0x20A) := by decide
theorem test_decode_drw : decode 0b1101111111101111#16 = .op (.drw 15 14 15) := by decide

theorem test_encode_all :
    encode .cls = 0b0000000011100000#16 ∧ encode (.jp 0xABC) = 0b0001101010111100#16 ∧
    encode (.ldV 10 0x42) = 0b0110101001000010#16 ∧ encode (.addV 15 1) = 0b0111111100000001#16 ∧
    encode (.ldI 0x20A) = 0b1010001000001010#16 ∧ encode (.drw 15 14 15) = 0b1101111111101111#16 := by decide

/-- 95_test_vectors.md section 2.1. -/
theorem test_decode_unimplemented :
    [0x0000, 0x00E1, 0x00EE, 0x0010, 0x0FF0, 0x2200, 0x3000, 0x4000, 0x5000, 0x8014, 0x9000, 0xB000, 0xC000, 0xE09E, 0xF065,
      0xFFFF].all (fun w : Word => decode w == .unimplemented w) = true := by decide

theorem test_table_word : decodeTableWord 16 0x6A42 = some (.ldV 10 0x42) ∧ decodeTableWord 16 0x0000 = none := by decide

/-! ### One step of each instruction (95_test_vectors.md sections 2.2 to 2.5) -/

theorem test_cls_clears_and_keeps_the_rest :
    let t := tick { (machine 0x200 0x00E0).setV VF 0x07 with I := 0x123, FB := allLit }
    t.FB = Display.unlit ∧ t.readV VF = 0x07 ∧ t.I = 0x123 ∧ t.pc = 0x202 := by decide

theorem test_jp_goes_to_nnn : (tick (machine 0x200 0x1ABC)).pc = 0xABC := by decide
theorem test_jp_to_odd_address : (tick (machine 0x200 0x1201)).pc = 0x201 := by decide

theorem test_ldV_writes_V3 :
    let t := tick ((machine 0x200 0x6342).setV 3 0x99)
    t.readV 3 = 0x42 ∧ t.readV 4 = 0 ∧ t.pc = 0x202 := by decide

theorem test_addV_wraps_without_a_carry :
    let t := tick ((machine 0x200 0x7002).setV 0 0xFF)
    t.readV 0 = 0x01 ∧ t.readV VF = 0 := by decide

theorem test_addV_into_VF : (tick ((machine 0x200 0x7F01).setV VF 0xFF)).readV VF = 0x00 := by decide

theorem test_ldI_takes_twelve_bits : (tick { machine 0x200 0xAFFF with I := 0x555 }).I = 0xFFF := by decide

/-- DV14: (0,0) is lit and goes out, (1,0) lights, VF = 1. -/
theorem test_drw_xor_and_collision :
    let s := sprite 0xD011 0x300 0 0 [0xC0]
    let t := tick (s.setFB (Display.unlit.write 0 0 true))
    t.pixel 0 0 = false ∧ t.pixel 1 0 = true ∧ t.pixel 2 0 = false ∧ t.readV VF = 1 := by decide

/-- DV6: origin (255 mod 64, 255 mod 32) = (63, 31), the second pixel clipped and not wrapped. -/
theorem test_drw_origin_wraps_and_edge_clips :
    let t := tick (sprite 0xD011 0x300 255 255 [0xC0])
    t.pixel 63 31 = true ∧ t.pixel 0 31 = false ∧ t.pixel 0 0 = false ∧ t.readV VF = 0 := by decide

/-! ### Faults (95_test_vectors.md sections 2.5 and 2.6) -/

/-- DV12. -/
theorem test_sprite_fault_changes_status_only :
    let s := (sprite 0xD002 0xFFF 0 0 []).setV VF 0x55
    tick s = { s with status := .faulted .spriteOutOfBounds 0x200 (some 0xD002) } := by decide

theorem test_unimplemented_word_faults :
    tick (machine 0x200 0x2200) =
      { machine 0x200 0x2200 with status := .faulted .unimplementedOpcode 0x200 (some 0x2200) } := by decide

theorem test_fetch_at_the_last_byte_faults :
    tick (machine 0xFFF 0x00E0) = { machine 0xFFF 0x00E0 with status := .faulted .fetchOutOfBounds 0xFFF none } := by decide

theorem test_fall_through_past_FFE :
    (tick (machine 0xFFE 0x6007)).pc = 0x1000 ∧
    (tick (tick (machine 0xFFE 0x6007))).status = .faulted .fetchOutOfBounds 0x1000 none := by decide

/-- An instruction placed for the next fetch runs at reset, and from a stuck and faulted state too. -/
theorem test_placed_word_runs :
    (tick (State.reset.withFetchWord 16 0x6342)).readV 3 = 0x42 ∧
    (tick ((tick (machine 0xFFF 0x00E0)).withFetchWord 16 0x6342)).readV 3 = 0x42 := by decide

/-! ### States that meet the hypotheses of the statements -/

theorem machine_runs_ldV : Runs (machine 0xFFE 0x6007) (.ldV 0 7) := ⟨0x6007, ⟨rfl, by decide, by decide⟩, by decide⟩
theorem machine_runs_cls : Runs (machine 0x200 0x00E0) .cls := ⟨0x00E0, ⟨rfl, by decide, by decide⟩, by decide⟩

theorem sprite_fetches (i : Word) (h : i = 0xFFF) : Fetches (sprite 0xD011 i 0 0 [0x80]) 0xD011 := by
  subst h; exact ⟨rfl, by decide, by decide⟩

theorem witness_StepRunsTheDecodedInstruction : ∃ s w i t, Fetches s w ∧ decode w = .op i ∧ exec i s = .next t ∧
    t.status = .running ∧ ∀ nnn, i ≠ .jp nnn :=
  ⟨machine 0xFFE 0x6007, 0x6007, .ldV 0 7, _, ⟨rfl, by decide, by decide⟩, by decide, rfl, by decide, by simp⟩

theorem witness_FetchIsBigEndian : (machine 0xFFE 0x6007).pc.toNat + 1 ≤ 0xFFF ∧ (machine 0x201 0x6007).pc.toNat + 1 ≤ 0xFFF := by
  decide

theorem witness_PcChangesInTwoWays :
    (∃ s t, s.status = .running ∧ step s = .next t ∧ t.status = .running ∧ t.pc = 0xABC) ∧
    (∃ s t, s.status = .running ∧ step s = .next t ∧ t.status = .running ∧ t.pc.toNat = s.pc.toNat + 2) ∧
    ∃ s t, s.status = .running ∧ step s = .next t ∧ t.status ≠ .running :=
  ⟨⟨machine 0x200 0x1ABC, _, rfl, rfl, by decide, by decide⟩, ⟨machine 0xFFE 0x6007, _, rfl, rfl, by decide, by decide⟩,
    ⟨machine 0xFFF 0, _, rfl, rfl, by decide⟩⟩

theorem witness_FetchPastTheEndFaults :
    (∃ s, s.status = .running ∧ s.pc.toNat + 1 > 0xFFF ∧ Inv s ∧ s.pc = 0x1000) ∧
    ∃ s t i, Runs s i ∧ s.pc = 0xFFE ∧ (∀ nnn, i ≠ .jp nnn) ∧ step s = .next t ∧ t.status = .running :=
  ⟨⟨{ State.reset with pc := 0x1000 }, rfl, by decide, ⟨rfl, by decide, by decide, trivial⟩, rfl⟩,
    ⟨_, _, _, machine_runs_ldV, rfl, by simp, rfl, by decide⟩⟩

theorem witness_UnimplementedWordFaults :
    (∃ s w, Fetches s w ∧ w.toNat / 4096 = 0 ∧ w ≠ 0x00E0#16 ∧ w.toNat = 0x0FFF) ∧
    ∃ s w, Fetches s w ∧ w.toNat / 4096 ∈ [2, 3, 4, 5, 8, 9, 0xB, 0xC, 0xE, 0xF] ∧ w.toNat = 0xFFFF :=
  ⟨⟨machine 0x200 0x0FFF, 0x0FFF, ⟨rfl, by decide, by decide⟩, by decide, by decide, by decide⟩,
    ⟨machine 0x200 0xFFFF, 0xFFFF, ⟨rfl, by decide, by decide⟩, by decide, by decide⟩⟩

theorem witness_SpritePastTheEndFaults :
    (∃ s w x y n, Fetches s w ∧ decode w = .op (.drw x y n) ∧ ∃ r < n.val, s.I.toNat + r > 0xFFF) ∧
    ∃ s w x y n, Fetches s w ∧ decode w = .op (.drw x y n) ∧ 0 < n.val ∧ ∀ r < n.val, s.I.toNat + r ≤ 0xFFF :=
  ⟨⟨sprite 0xD002 0xFFF 0 0 [], 0xD002, 0, 0, 2, ⟨rfl, by decide, by decide⟩, by decide, 1, by decide, by decide⟩,
    ⟨sprite 0xD011 0xFFF 0 0 [0x80], 0xD011, 0, 1, 1, sprite_fetches _ rfl, by decide, by decide, by decide⟩⟩

theorem witness_FaultIsAllOrNothing : ∃ s t, s.status = .running ∧ step s = .next t ∧ t.status ≠ .running :=
  ⟨sprite 0xD002 0xFFF 0 0 [], _, rfl, rfl, by decide⟩

theorem witness_FaultIsTerminal : (tick (machine 0x200 0x2200)).status = .faulted .unimplementedOpcode 0x200 (some 0x2200) := by
  decide

theorem witness_DecodingIsUnique :
    (Instr.template (.jp 0) ∈ opcodeMap ∧ (Instr.template (.jp 0)).accepts 0x1000 ∧ (Instr.template (.jp 0)).accepts 0x1FFF ∧
      (0x1000#16 : Word) ≠ 0x1FFF) ∧
    Instr.template .cls ∈ opcodeMap ∧ (Instr.template .cls).accepts 0x00E0 ∧ (0x00E0#16 : Word).toNat < 0x1000 := by decide

theorem witness_CategoryZeroHoldsOneInstruction : (0x0FFF#16 : Word).toNat < 0x1000 ∧ (0x0FFF#16 : Word) ≠ 0x00E0#16 := by decide

theorem witness_FieldsAreExact :
    decode 0x6F00 = .op (.ldV 15 0) ∧ decode 0x70FF = .op (.addV 0 0xFF) ∧ decode 0xDFEF = .op (.drw 15 14 15) := by decide

theorem witness_AssembledLinesDecode :
    (AsmLine.db 0xFF).assemble = some [0xFF] ∧ (AsmLine.jp 0xFFF).assemble = some [0x1F, 0xFF] := by decide

theorem witness_JumpSetsPc :
    (∃ s t, exec (.jp 0xFFF) s = .next t ∧ s.status = .running) ∧
    (∃ s t w, exec (.jp 0x300) s = .next t ∧ s.status = .running ∧ fetch t = some w ∧ decode w = .unimplemented w) ∧
    ∃ nnn s, Runs s (.jp nnn) ∧ s.pc = nnn.zeroExtend 16 :=
  ⟨⟨State.reset, _, rfl, rfl⟩, ⟨State.reset, _, 0, rfl, rfl, by decide, by decide⟩,
    ⟨0x200, machine 0x200 0x1200, ⟨0x1200, ⟨rfl, by decide, by decide⟩, by decide⟩, by decide⟩⟩

theorem witness_SetAddressWritesI : ∃ (nnn : Addr12) (n : RowCount), nnn = 0xFFF ∧ 2 ≤ n.val := ⟨0xFFF, 2, by decide⟩

theorem witness_DrawFlipsTheCoveredPixels : ∃ s x y n, SpriteFits s n ∧
    (∃ px py, Covered s x y n px py) ∧ ∃ px py, ¬ Covered s x y n px py := by
  refine ⟨sprite 0xD011 0xFFF 63 31 [0xC0], 0, 1, 1, fun r hr => ?_, ⟨63, 31, 0, 0, by decide⟩, 0, 31, ?_⟩
  · obtain rfl : r = 0 := by simpa using hr
    decide
  · rintro ⟨r, c, -, -, h, -⟩
    have : ((sprite 0xD011 0xFFF 63 31 [0xC0]).readV 0).toNat = 63 := by decide
    rw [this] at h
    simp at h
    omega

theorem witness_DrawReportsCollision :
    (∃ s x y n, SpriteFits s n ∧ ∃ px py, Covered s x y n px py ∧ s.pixel px py = true) ∧
    ∃ s, ∃ x y : RegIdx, ∃ n, SpriteFits s n ∧ ¬ ∃ px py, Covered s x y n px py ∧ s.pixel px py = true := by
  refine ⟨⟨(sprite 0xD011 0xFFF 63 31 [0xC0]).setFB allLit, 0, 1, 1, fun r hr => ?_, 63, 31, ⟨0, 0, by decide⟩, by decide⟩,
    ⟨State.reset, 0, 0, 0, fun r hr => absurd hr (by simp), ?_⟩⟩
  · obtain rfl : r = 0 := by simpa using hr
    decide
  · rintro ⟨px, py, ⟨r, c, hr, -⟩, -⟩
    exact absurd hr (by simp)

theorem witness_DrawFrame :
    SpriteFits State.reset 15 ∧ (∃ t, exec (.drw 0 1 15) State.reset = .next t) ∧
    ¬ SpriteFits (sprite 0xD002 0xFFF 0 0 []) 2 ∧ ∃ t, exec (.drw 0 0 2) (sprite 0xD002 0xFFF 0 0 []) = .next t :=
  ⟨fun r (hr : r < 15) => (by omega : 0 + r ≤ 0xFFF), ⟨_, rfl⟩, fun h => absurd (h 1 (by decide)) (by decide), ⟨_, rfl⟩⟩

theorem witness_RedrawErases : ∃ s t : State, ∃ x y : RegIdx, SpriteFits s 1 ∧ exec (.drw x y 1) s = .next t ∧ x ≠ VF ∧ y ≠ VF ∧
    t.readV x = s.readV x ∧ t.readV y = s.readV y ∧ t.I = s.I ∧ t.memory = s.memory ∧
    ∃ px py, s.pixel px py = false ∧ t.pixel px py = true := by
  refine ⟨sprite 0xD011 0xFFF 63 31 [0xC0], _, 0, 1, fun r hr => ?_, rfl, by decide, by decide, by decide, by decide, rfl, rfl,
    63, 31, by decide, by decide⟩
  obtain rfl : r = 0 := by simpa using hr
  decide

/-- The second draw of `RedrawErases` where the first lit nothing: a sprite of zero bytes. -/
theorem witness_RedrawErases_nothing_lit : ∃ s t : State, SpriteFits s 1 ∧ exec (.drw 0 1 1) s = .next t ∧ t.FB = s.FB := by
  refine ⟨sprite 0xD011 0xFFF 63 31 [0x00], _, fun r hr => ?_, rfl, by decide⟩
  obtain rfl : r = 0 := by simpa using hr
  decide

theorem witness_HandlersWriteOnlyTheirOwnState :
    (∃ s t, exec (.ldV VF 1) s = .next t ∧ t.readV VF ≠ s.readV VF ∧ (0 : RegIdx) ∉ Writes (.ldV VF 1)) ∧
    (∃ s t, exec (.addV VF 1) s = .next t ∧ t.readV VF ≠ s.readV VF) ∧
    ∃ s t, exec (.drw 0 0 0) s = .next t ∧ t.readV VF ≠ s.readV VF ∧ SpriteFits s 0 :=
  ⟨⟨State.reset, _, rfl, by decide, by decide⟩, ⟨State.reset, _, rfl, by decide⟩,
    ⟨State.reset.setV VF 0x55, _, rfl, by decide, fun r hr => absurd hr (by simp)⟩⟩

theorem witness_UnreadRegistersMakeNoDifference :
    (∃ s t, exec (.addV 3 1) s = .next t ∧ (4 : RegIdx) ∉ Reads (.addV 3 1) ∧ (4 : RegIdx) ∉ Writes (.addV 3 1)) ∧
    ∃ s t, exec (.drw 0 1 0) s = .next t ∧ VF ∉ Reads (.drw 0 1 0) ∧ VF ∈ Writes (.drw 0 1 0) ∧ SpriteFits s 0 :=
  ⟨⟨State.reset, _, rfl, by decide, by decide⟩,
    ⟨State.reset, _, rfl, by decide, by decide, fun r hr => absurd hr (by simp)⟩⟩

theorem witness_AddressRegisterServesTheDrawOnly :
    (∃ s t, step s = .next t ∧ t.I ≠ s.I) ∧ ∃ i s t, (∀ x y n, i ≠ .drw x y n) ∧ exec i s = .next t :=
  ⟨⟨machine 0x200 0xAFFF, _, rfl, by decide⟩, ⟨.cls, State.reset, _, by simp, rfl⟩⟩

theorem witness_AddressRegisterStaysTwelveBits : ∃ s t : State, s.I.toNat = 0xFFF ∧ s.I.toNat ≤ 0xFFF ∧ step s = .next t :=
  ⟨{ machine 0x200 0x00E0 with I := 0xFFF }, _, by decide, by decide, rfl⟩

theorem witness_OnlyClearAndDrawWriteTheDisplay :
    (∃ s t, step s = .next t ∧ ∃ px py, t.pixel px py ≠ s.pixel px py) ∧
    (∃ s t, Runs s .cls ∧ step s = .next t) ∧
    ∃ s t x y n, Runs s (.drw x y n) ∧ step s = .next t ∧ SpriteFits s n := by
  refine ⟨⟨(machine 0x200 0x00E0).setFB allLit, _, rfl, 0, 0, by decide⟩, ⟨_, _, machine_runs_cls, rfl⟩,
    ⟨_, _, 0, 1, 1, ⟨_, sprite_fetches _ rfl, by decide⟩, rfl, fun r hr => ?_⟩⟩
  obtain rfl : r = 0 := by simpa using hr
  decide

theorem witness_MemoryNeverChangesAfterBoot : (∃ s t, step s = .next t ∧ t ≠ s) ∧ ∃ s, boot (.bytes [0x12, 0x00]) = .ok s :=
  ⟨⟨machine 0x200 0x00E0, _, rfl, by decide⟩, ⟨_, rfl⟩⟩

theorem witness_DisplayDoesNotSteerTheMachine : ∃ s t, step s = .next t ∧ ∀ x y n, ¬ Runs s (.drw x y n) := by
  refine ⟨machine 0x200 0x00E0, _, rfl, ?_⟩
  rintro x y n ⟨w, ⟨-, -, rfl⟩, h⟩
  exact absurd h (by decide +revert)

theorem witness_EveryStepKeepsTheInvariant :
    (∃ s t, Inv s ∧ step s = .next t ∧ t.status = .running) ∧ ∃ s t, Inv s ∧ step s = .next t ∧ t.status ≠ .running :=
  ⟨⟨machine 0xFFE 0x6007, _, ⟨by decide, by decide, by decide, trivial⟩, rfl, by decide⟩,
    ⟨machine 0x1000 0, _, ⟨by decide, by decide, by decide, trivial⟩, rfl, by decide⟩⟩

theorem witness_InvariantHoldsOnEveryRun : ∃ s, boot (.bytes [0x00, 0xE0]) = .ok s := ⟨_, rfl⟩

theorem witness_BootLoadsTheImage : ([0x00, 0xE0] : List Byte).length ≤ 0xE00 ∧ 1 < ([0x00, 0xE0] : List Byte).length ∧
    0x200 + ([0x00, 0xE0] : List Byte).length ≤ 0xFFF ∧ 0x1FF < 0x200 := by decide

theorem witness_BootLoadsTheImage_longest : ∃ image : List Byte, image.length ≤ 0xE00 ∧ 0xDFF < image.length :=
  ⟨List.replicate 0xE00 0xFF, by rw [List.length_replicate], by rw [List.length_replicate]; decide⟩

theorem witness_BootRefuses : (∃ image : List Byte, image.length > 0xE00) ∧ ∃ image : List Byte, image.length = 0xE00 :=
  ⟨⟨List.replicate 0xE01 0, by rw [List.length_replicate]; decide⟩, ⟨List.replicate 0xE00 0, List.length_replicate⟩⟩

theorem witness_HostOnlyBootsTicksAndReads :
    (∃ s t, step s = .next t) ∧ ∀ report, HostAction.terminate ≠ .boot report :=
  ⟨⟨State.reset, _, rfl⟩, by simp⟩

end Sys2Proof.Tests
end

/-! ### What a step and an instruction can answer, from the state before it -/

namespace Sys2Proof.Machine

open Sys2Proof.Claims

variable {s t : State} {i : Instr}

/-! ### The instruction at pc -/

/-- The instruction at pc, in the terms of the fetch port and the decoder. -/
theorem runs_iff : Runs s i ↔ ∃ w, s.status = .running ∧ fetch s = some w ∧ decode w = .op i := by
  simp only [Runs, Fetches, fetch_eq_some, and_assoc]

/-- The instruction at pc is what the step runs (40_cycle.md R61). -/
theorem step_of_runs (h : Runs s i) : step s = exec i s := by
  obtain ⟨w, hst, hf, hd⟩ := runs_iff.1 h
  simp only [step, hst, hf, hd]

/-- A fetch is in bounds, so the advance past the word does not wrap. -/
theorem pc_add_two_toNat_of_runs (h : Runs s i) : (s.pc + 2).toNat = s.pc.toNat + 2 := by
  obtain ⟨w, -, hf, -⟩ := runs_iff.1 h
  exact advance_pc_toNat (fetch_eq_some.1 hf).1

/-- A step either leaves only a fault record, its own or the one that stood there (60_exceptions.md R91, R94), or runs the
instruction at pc. -/
theorem step_next_cases (h : step s = .next t) :
    (∃ c a w, t = raiseFault s c a w) ∨ ∃ i, Runs s i ∧ exec i s = .next t := by
  rcases step_cases s with ⟨hst, hs⟩ | ⟨-, -, hs⟩ | ⟨w, -, -, -, hs⟩ | ⟨w, i, hst, hf, hd, hs⟩ <;>
    rw [hs] at h
  · obtain rfl := Host.Outcome.next.inj h
    obtain ⟨m, pc, I, V, FB, status⟩ := s
    cases status with
    | running => exact absurd rfl hst
    | faulted c a w => exact .inl ⟨c, a, w, rfl⟩
  · exact .inl ⟨_, _, _, (Host.Outcome.next.inj h).symm⟩
  · exact .inl ⟨_, _, _, (Host.Outcome.next.inj h).symm⟩
  · exact .inr ⟨i, runs_iff.2 ⟨w, hst, hf, hd⟩, h⟩

/-! ### The bounds of a sprite and the write of I -/

/-- A sprite fits exactly when the sprite port answers all its rows (20_memory.md R39). -/
theorem spriteFits_iff {n : RowCount} : SpriteFits s n ↔ n.val = 0 ∨ s.I.toNat + n.val ≤ 0x1000 := by
  constructor
  · intro h
    by_cases hn : n.val = 0
    · exact .inl hn
    · have := h (n.val - 1) (by omega)
      omega
  · intro h r hr
    omega

/-- The mask of a write of I is the remainder modulo 0x1000 (10_state.md R21). -/
theorem setI_I_toNat (s : State) (v : Word) : (s.setI v).I.toNat = v.toNat % 4096 := by
  rw [State.setI_I, BitVec.toNat_and]
  exact Nat.and_two_pow_sub_one_eq_mod v.toNat 12

theorem zeroExtend_toNat (nnn : Addr12) : (nnn.zeroExtend 16 : Word).toNat = nnn.toNat :=
  BitVec.toNat_setWidth_of_le (by decide)

/-- The mask of a write of I leaves a zero-extended NNN as it is. -/
theorem setI_zeroExtend_I (s : State) (nnn : Addr12) : (s.setI (nnn.zeroExtend 16)).I = nnn.zeroExtend 16 := by
  apply BitVec.eq_of_toNat_eq
  rw [setI_I_toNat, zeroExtend_toNat, Nat.mod_eq_of_lt nnn.isLt]

/-! ### The next state of each instruction -/

/-- `t` is a next state of instruction `i` from `s`, one case for each way an instruction can end. -/
inductive Effect (s : State) : Instr → State → Prop
  | cls : Effect s .cls ((advance s).setFB Display.unlit)
  | jp (nnn : Addr12) : Effect s (.jp nnn) ((advance s).setPc (nnn.zeroExtend 16))
  | ldV (x : RegIdx) (nn : Byte) : Effect s (.ldV x nn) ((advance s).setV x nn)
  | addV (x : RegIdx) (nn : Byte) : Effect s (.addV x nn) ((advance s).setV x (s.readV x + nn))
  | ldI (nnn : Addr12) : Effect s (.ldI nnn) ((advance s).setI (nnn.zeroExtend 16))
  | spriteFault (x y : RegIdx) (n : RowCount) (out : ¬ SpriteFits s n) :
      Effect s (.drw x y n) (takeSpriteFault s (.drw x y n))
  | drw (x y : RegIdx) (n : RowCount) (fits : SpriteFits s n) : Effect s (.drw x y n) (drawn s x y n)

theorem effect_of_exec (h : exec i s = .next t) : Effect s i t := by
  rcases exec_cases i s with ⟨rfl, he⟩ | ⟨nnn, rfl, he⟩ | ⟨x, nn, rfl, he⟩ | ⟨x, nn, rfl, he⟩ | ⟨nnn, rfl, he⟩ |
    ⟨x, y, n, rfl, ⟨hn, hout⟩, he⟩ | ⟨x, y, n, rfl, hin, he⟩ <;>
    obtain rfl := Host.Outcome.next.inj (he.symm.trans h)
  · exact .cls
  · exact .jp nnn
  · exact .ldV x nn
  · exact .addV x nn
  · exact .ldI nnn
  · exact .spriteFault x y n (by rw [spriteFits_iff]; omega)
  · exact .drw x y n (spriteFits_iff.2 hin)

/-! ### What an instruction writes, part by part (10_state.md R15) -/

theorem exec_keeps_memory (h : exec i s = .next t) : t.memory = s.memory := by
  cases effect_of_exec h <;> rfl

/-- A register outside the writes column of R13 keeps its byte. -/
theorem exec_keeps_readV (h : exec i s = .next t) {r : RegIdx} (hr : r ∉ Writes i) : t.readV r = s.readV r := by
  cases effect_of_exec h with
  | ldV x nn => exact (advance s).readV_setV_of_ne (List.ne_of_not_mem_cons hr) _
  | addV x nn => exact (advance s).readV_setV_of_ne (List.ne_of_not_mem_cons hr) _
  | drw x y n _ => rw [drawn_readV, if_neg (List.ne_of_not_mem_cons hr)]
  | _ => rfl

/-- VF is written by a draw and, as an ordinary register, by 6FNN and 7FNN. -/
theorem vf_mem_writes (h : VF ∈ Writes i) :
    (∃ x y n, i = .drw x y n) ∨ (∃ nn, i = .ldV VF nn) ∨ ∃ nn, i = .addV VF nn := by
  cases i with
  | drw x y n => exact .inl ⟨x, y, n, rfl⟩
  | ldV x nn => exact .inr (.inl ⟨nn, by rw [List.mem_singleton.1 h]⟩)
  | addV x nn => exact .inr (.inr ⟨nn, by rw [List.mem_singleton.1 h]⟩)
  | _ => exact absurd h List.not_mem_nil

/-- Only set-address writes I (10_state.md R20). -/
theorem exec_I_cases (h : exec i s = .next t) : t.I = s.I ∨ ∃ nnn, i = .ldI nnn ∧ t.I = nnn.zeroExtend 16 := by
  cases effect_of_exec h with
  | ldI nnn => exact .inr ⟨nnn, rfl, setI_zeroExtend_I _ nnn⟩
  | _ => exact .inl rfl

/-- Only clear-screen and draw-sprite write pixels (10_state.md R26). -/
theorem exec_keeps_FB (h : exec i s = .next t) (hcls : i ≠ .cls) (hdrw : ∀ x y n, i ≠ .drw x y n) : t.FB = s.FB := by
  cases effect_of_exec h with
  | cls => exact absurd rfl hcls
  | spriteFault x y n _ => exact absurd rfl (hdrw x y n)
  | drw x y n _ => exact absurd rfl (hdrw x y n)
  | _ => rfl

/-- An instruction writes status only by the sprite fault, which leaves pc (60_exceptions.md R89, R91). -/
theorem exec_status_cases (h : exec i s = .next t) :
    t.status = s.status ∨
    ∃ x y n, i = .drw x y n ∧ ¬ SpriteFits s n ∧ t.status ≠ .running ∧ t.pc = s.pc := by
  cases effect_of_exec h with
  | spriteFault x y n out => exact .inr ⟨x, y, n, rfl, out, by simp, rfl⟩
  | _ => exact .inl rfl

/-- An instruction that completes has advanced pc, or replaced it by a jump's target (10_state.md R17). -/
theorem exec_pc_cases (h : exec i s = .next t) (hst : t.status = .running) :
    (∃ nnn, i = .jp nnn ∧ t.pc = nnn.zeroExtend 16) ∨ ((∀ nnn, i ≠ .jp nnn) ∧ t.pc = s.pc + 2) := by
  cases effect_of_exec h with
  | jp nnn => exact .inl ⟨nnn, rfl, rfl⟩
  | spriteFault x y n _ => simp at hst
  | _ => exact .inr ⟨by simp, rfl⟩

/-! ### What a sprite covers -/

@[simp] theorem rowsOf_length (s : State) (n : RowCount) : (rowsOf s n).length = n.val := by
  rw [rowsOf, List.length_map, List.length_range]

@[simp] theorem rowsOf_getElem {n : RowCount} {r : Nat} (h : r < (rowsOf s n).length) :
    (rowsOf s n)[r] = s.memory.peek (s.I.toNat + r) := by
  simp only [rowsOf, List.getElem_map, List.getElem_range]

/-- The positions under a sprite's set bits, in the terms of the draw engine (43_draw.md R78). -/
theorem covered_iff {x y : RegIdx} {n : RowCount} {px : Fin Config.width} {py : Fin Config.height} :
    Covered s x y n px py ↔ rowsCover (originX s x) (originY s y) (rowsOf s n) px py = true := by
  simp only [rowsCover_iff, rowsOf_length, rowsOf_getElem, exists_prop]
  rfl

/-- A draw whose sprite fits changes exactly the covered pixels (43_draw.md R80). -/
theorem drawn_pixel_ne_iff {x y : RegIdx} {n : RowCount} {px : Fin Config.width} {py : Fin Config.height} :
    (drawn s x y n).pixel px py ≠ s.pixel px py ↔ Covered s x y n px py := by
  rw [covered_iff, drawn_pixel]
  cases rowsCover (originX s x) (originY s y) (rowsOf s n) px py <;> simp

end Sys2Proof.Machine

/-! ### The statements about the state (10_state.md) -/

namespace Sys2Proof.Proofs

open Sys2Proof.Machine Sys2Proof.Claims

/-- Settles O3: a step that is not a fault runs one instruction, and that instruction's pc is the target or the advance. -/
theorem pcChangesInTwoWays : Obligations.PcChangesInTwoWays := by
  intro s t hs h
  rcases step_next_cases h with ⟨c, a, w, rfl⟩ | ⟨i, hrun, he⟩
  · exact ⟨fun ht => by simp at ht, fun _ => rfl⟩
  · refine ⟨fun ht => ?_, fun ht => ?_⟩
    · rcases exec_pc_cases he ht with ⟨nnn, rfl, hpc⟩ | ⟨hjp, hpc⟩
      · exact .inl ⟨nnn, hrun, hpc⟩
      · exact .inr ⟨⟨i, hrun, hjp⟩, by rw [hpc, pc_add_two_toNat_of_runs hrun]⟩
    · rcases exec_status_cases he with hkeep | ⟨_, _, _, -, -, -, hpc⟩
      · exact absurd (hkeep.trans hs) ht
      · exact hpc

/-- Settles O27, from the frame of every instruction, one part of the state at a time. -/
theorem handlersWriteOnlyTheirOwnState : Obligations.HandlersWriteOnlyTheirOwnState := by
  intro i s t h
  refine ⟨fun r => exec_keeps_readV h, fun hvf => ?_, fun a => by rw [exec_keeps_memory h], fun hldI => ?_,
    fun hcls hdrw px py => ?_, fun hdrw => ?_, fun x y n hi hfit => ?_⟩
  · exact vf_mem_writes (by_contra fun hnot => hvf (exec_keeps_readV h hnot))
  · rcases exec_I_cases h with hkeep | ⟨nnn, hi, -⟩
    · exact hkeep
    · exact absurd hi (hldI nnn)
  · rw [State.pixel, State.pixel, exec_keeps_FB h hcls hdrw]
  · rcases exec_status_cases h with hkeep | ⟨x, y, n, hi, -⟩
    · exact hkeep
    · exact absurd hi (hdrw x y n)
  · rcases exec_status_cases h with hkeep | ⟨x', y', n', hi', hout, -⟩
    · exact hkeep
    · obtain ⟨-, -, rfl⟩ := Instr.drw.inj (hi.symm.trans hi')
      exact absurd hfit hout

/-- Settles O29: a step that changes I runs set-address, and no meaning but the draw's looks at I. -/
theorem addressRegisterServesTheDrawOnly : Obligations.AddressRegisterServesTheDrawOnly := by
  refine ⟨fun s t h hI => ?_, fun i s t v hdrw h => ?_⟩
  · rcases step_next_cases h with ⟨c, a, w, rfl⟩ | ⟨i, hrun, he⟩
    · exact absurd rfl hI
    · rcases exec_I_cases he with hkeep | ⟨nnn, rfl, ht⟩
      · exact absurd hkeep hI
      · exact ⟨nnn, hrun, ht⟩
  · cases effect_of_exec h with
    | spriteFault x y n _ => exact absurd rfl (hdrw x y n)
    | drw x y n _ => exact absurd rfl (hdrw x y n)
    | _ => exact ⟨_, rfl, rfl⟩

/-- Settles O30: a step keeps I or puts a zero-extended NNN there, and both are below 0x1000. -/
theorem addressRegisterStaysTwelveBits : Obligations.AddressRegisterStaysTwelveBits := by
  refine ⟨fun s v => ⟨rfl, setI_I_toNat s v⟩, setI_zeroExtend_I, fun s t hs h => ?_⟩
  have hle : t.I.toNat ≤ 0xFFF := by
    by_cases hI : t.I = s.I
    · rw [hI]; exact hs
    · obtain ⟨nnn, -, ht⟩ := addressRegisterServesTheDrawOnly.1 s t h hI
      rw [ht, zeroExtend_toNat]
      exact Nat.le_of_lt_succ nnn.isLt
  refine ⟨hle, BitVec.eq_of_toNat_eq ?_⟩
  rw [BitVec.toNat_ushiftRight, Nat.shiftRight_eq_div_pow]
  exact Nat.div_eq_of_lt (Nat.lt_succ_of_le hle)

/-- Settles O31: a pixel changes only under the two instructions, and each does what its meaning says. -/
theorem onlyClearAndDrawWriteTheDisplay : Obligations.OnlyClearAndDrawWriteTheDisplay := by
  refine ⟨fun s t h hne => ?_, fun s t hrun h => ?_, fun s t x y n hrun h hfit px py => ?_⟩
  · obtain ⟨px, py, hne⟩ := hne
    rcases step_next_cases h with ⟨c, a, w, rfl⟩ | ⟨i, hrun, he⟩
    · exact absurd rfl hne
    · by_contra hnot
      refine hne (congrArg (fun d => d.read px py) (exec_keeps_FB he ?_ ?_))
      · rintro rfl
        exact hnot (.inl hrun)
      · rintro x y n rfl
        exact hnot (.inr ⟨x, y, n, hrun⟩)
  · rw [step_of_runs hrun] at h
    cases effect_of_exec h
    exact ⟨fun px py => by simp, rfl, rfl, rfl, fun r => rfl⟩
  · rw [step_of_runs hrun] at h
    cases effect_of_exec h with
    | spriteFault _ _ _ hout => exact absurd hfit hout
    | drw => exact drawn_pixel_ne_iff

end Sys2Proof.Proofs

/-! ### Ticks: every one completes, and what every step keeps every run keeps -/

namespace Sys2Proof.Machine

theorem exec_completes (i : Instr) (s : State) : ∃ t, exec i s = .next t := by
  rcases exec_cases i s with ⟨-, h⟩ | ⟨_, -, h⟩ | ⟨_, _, -, h⟩ | ⟨_, _, -, h⟩ | ⟨_, -, h⟩ | ⟨_, _, _, -, -, h⟩ |
    ⟨_, _, _, -, -, h⟩ <;>
    exact ⟨_, h⟩

theorem step_completes (s : State) : ∃ t, step s = .next t := by
  rcases step_cases s with ⟨-, h⟩ | ⟨-, -, h⟩ | ⟨_, -, -, -, h⟩ | ⟨_, i, -, -, -, h⟩
  · exact ⟨_, h⟩
  · exact ⟨_, h⟩
  · exact ⟨_, h⟩
  · rw [h]
    exact exec_completes i s

/-- A tick is the step's next state: a step never stops in a host fault or a refusal (40_cycle.md section 3). -/
theorem step_eq_next_tick (s : State) : step s = .next (tick s) := by
  obtain ⟨t, h⟩ := step_completes s
  simp only [tick, h]

/-- A property that every step keeps holds after any number of ticks. -/
theorem ticks_keeps {P : State → Prop} (hstep : ∀ s t, P s → step s = .next t → P t) (k : Nat) {s : State} (hs : P s) :
    P (ticks k s) := by
  induction k generalizing s with
  | zero => exact hs
  | succ k ih => exact ih (hstep s (tick s) hs (step_eq_next_tick s))

theorem step_keeps_memory {s t : State} (h : step s = .next t) : t.memory = s.memory := by
  rcases step_next_cases h with ⟨c, a, w, rfl⟩ | ⟨i, -, he⟩
  · exact raiseFault_memory s c a w
  · exact exec_keeps_memory he

/-- No run writes memory (20_memory.md R46). -/
@[simp] theorem ticks_memory (k : Nat) (s : State) : (ticks k s).memory = s.memory :=
  ticks_keeps (P := fun t => t.memory = s.memory) (fun _ _ hm h => (step_keeps_memory h).trans hm) k rfl

end Sys2Proof.Machine

/-! ### The statements about memory (20_memory.md) -/

namespace Sys2Proof.Proofs

open Sys2Proof.Machine

/-- Settles O32: no step writes memory, so a run does not either, and the fetch port reads memory alone. Any start state
would do, not only one that boot made. -/
theorem memoryNeverChangesAfterBoot : Obligations.MemoryNeverChangesAfterBoot := by
  refine ⟨fun s t h => ?_, fun _ s k _ => ?_⟩
  · have hm : t.memory = s.memory := step_keeps_memory h
    exact ⟨hm, fun a => by rw [hm]⟩
  · exact ⟨ticks_memory k s, by rw [fetch, ticks_memory]⟩

/-- Settles O2: inside the bounds the fetch port answers, and with the word of the two bytes at pc. -/
theorem fetchIsBigEndian : Obligations.FetchIsBigEndian :=
  fun _ hpc => ⟨_, fetch_eq_some.2 ⟨hpc, rfl⟩, rfl, wordOfBytes_toNat _ _⟩

end Sys2Proof.Proofs

/-! ### The decoder: its fields as numbers, the words of each instruction, and the words a template accepts -/

namespace Sys2Proof

variable {w : Word} {i : Instr}

/-! ### Fields as numbers (30_encoding.md R49) -/

theorem catField_toNat (w : Word) : (catField w).toNat = w.toNat / 4096 := by
  have := w.isLt
  simp only [catField, BitVec.extractLsb'_toNat, Nat.shiftRight_eq_div_pow]
  omega

theorem xField_val (w : Word) : (xField w).val = w.toNat / 256 % 16 := by
  simp [xField, Nat.shiftRight_eq_div_pow]

theorem yField_val (w : Word) : (yField w).val = w.toNat / 16 % 16 := by
  simp [yField, Nat.shiftRight_eq_div_pow]

theorem nField_val (w : Word) : (nField w).val = w.toNat % 16 := by
  simp [nField]

theorem nnField_toNat (w : Word) : (nnField w).toNat = w.toNat % 256 := by
  simp [nnField]

theorem nnnField_toNat (w : Word) : (nnnField w).toNat = w.toNat % 4096 := by
  simp [nnnField]

/-- X by mask and shift (30_encoding.md R49): the shift moves the mask to the four low bits. -/
theorem xField_val_eq_mask_shift (w : Word) : (xField w).val = ((w &&& 0x0F00#16) >>> 8).toNat := by
  have hmask : (w.toNat &&& 0x0F00) >>> 8 = (w.toNat >>> 8) &&& (2 ^ 4 - 1) := Nat.shiftRight_and_distrib
  rw [BitVec.toNat_ushiftRight, BitVec.toNat_and, BitVec.toNat_ofNat, hmask, Nat.and_two_pow_sub_one_eq_mod, xField_val,
    Nat.shiftRight_eq_div_pow]

/-! ### A word is its fields -/

theorem catField_append_nnnField (w : Word) : catField w ++ nnnField w = w :=
  (BitVec.extractLsb'_append_extractLsb'_eq_extractLsb' rfl).trans BitVec.extractLsb'_eq_self

theorem xField_append_nnField (w : Word) : nibble (xField w) ++ nnField w = nnnField w :=
  BitVec.extractLsb'_append_extractLsb'_eq_extractLsb' rfl

theorem yField_append_nField (w : Word) : nibble (yField w) ++ nibble (nField w) = nnField w :=
  BitVec.extractLsb'_append_extractLsb'_eq_extractLsb' rfl

theorem catField_append_xField_append_nnField (w : Word) : catField w ++ nibble (xField w) ++ nnField w = w := by
  rw [BitVec.append_assoc, xField_append_nnField]
  exact catField_append_nnnField w

theorem catField_append_xField_append_yField_append_nField (w : Word) :
    catField w ++ nibble (xField w) ++ nibble (yField w) ++ nibble (nField w) = w := by
  rw [BitVec.append_assoc, yField_append_nField]
  exact catField_append_xField_append_nnField w

/-! ### Which words decode to an instruction -/

/-- The decoder answers an instruction in six ways: the exact word of CLS, or a category and the operands in its fields. -/
theorem decode_eq_op_iff : decode w = .op i ↔
    (w = 0x00E0#16 ∧ i = .cls) ∨
    (catField w = 0x1#4 ∧ i = .jp (nnnField w)) ∨
    (catField w = 0x6#4 ∧ i = .ldV (xField w) (nnField w)) ∨
    (catField w = 0x7#4 ∧ i = .addV (xField w) (nnField w)) ∨
    (catField w = 0xA#4 ∧ i = .ldI (nnnField w)) ∨
    (catField w = 0xD#4 ∧ i = .drw (xField w) (yField w) (nField w)) := by
  constructor
  · intro h
    simp only [decode] at h
    split at h
    · split at h <;> simp_all
    all_goals simp_all [← BitVec.toNat_inj]
  · rintro (⟨rfl, rfl⟩ | ⟨hc, rfl⟩ | ⟨hc, rfl⟩ | ⟨hc, rfl⟩ | ⟨hc, rfl⟩ | ⟨hc, rfl⟩)
    · decide
    all_goals simp [decode, hc]

theorem decode_eq_ldV_iff {x : RegIdx} {nn : Byte} :
    decode w = .op (.ldV x nn) ↔ catField w = 0x6#4 ∧ x = xField w ∧ nn = nnField w := by
  simp [decode_eq_op_iff]

theorem decode_eq_addV_iff {x : RegIdx} {nn : Byte} :
    decode w = .op (.addV x nn) ↔ catField w = 0x7#4 ∧ x = xField w ∧ nn = nnField w := by
  simp [decode_eq_op_iff]

theorem decode_eq_drw_iff {x y : RegIdx} {n : RowCount} :
    decode w = .op (.drw x y n) ↔ catField w = 0xD#4 ∧ x = xField w ∧ y = yField w ∧ n = nField w := by
  simp [decode_eq_op_iff]

/-- In category 0 every word but 00E0 is rejected (30_encoding.md R54). -/
theorem decode_category_zero (hlt : w.toNat < 0x1000) (hne : w ≠ 0x00E0#16) : decode w = .unimplemented w := by
  have hc : (catField w).toNat = 0 := by rw [catField_toNat]; omega
  simp [decode, hc, hne]

/-- The encoder undoes the decoder (30_encoding.md R53). -/
theorem encode_of_decode (h : decode w = .op i) : encode i = w := by
  rcases decode_eq_op_iff.1 h with ⟨rfl, rfl⟩ | ⟨hc, rfl⟩ | ⟨hc, rfl⟩ | ⟨hc, rfl⟩ | ⟨hc, rfl⟩ | ⟨hc, rfl⟩
  · rfl
  · rw [encode, ← hc, catField_append_nnnField]
  · rw [encode, ← hc, catField_append_xField_append_nnField]
  · rw [encode, ← hc, catField_append_xField_append_nnField]
  · rw [encode, ← hc, catField_append_nnnField]
  · rw [encode, ← hc, catField_append_xField_append_yField_append_nField]

/-! ### Templates (30_encoding.md R53) -/

theorem template_mem_opcodeMap (i : Instr) : i.template ∈ opcodeMap := by
  cases i <;> simp [opcodeMap, Instr.template]

/-- The opcode map holds no templates but those of instructions. -/
theorem exists_template_of_mem_opcodeMap {t : Template} (ht : t ∈ opcodeMap) : ∃ i : Instr, i.template = t := by
  obtain ⟨i, -, hi⟩ := List.mem_map.1 ht
  exact ⟨i, hi⟩

theorem template_accepts_encode (i : Instr) : i.template.accepts (encode i) := by
  cases i with
  | cls => exact Laws.OwnTemplate.cls
  | jp nnn => exact Laws.OwnTemplate.jp nnn
  | ldV x nn => exact Laws.OwnTemplate.ldV x nn
  | addV x nn => exact Laws.OwnTemplate.addV x nn
  | ldI nnn => exact Laws.OwnTemplate.ldI nnn
  | drw x y n => exact Laws.OwnTemplate.drw x y n

/-- The mask of the five templates with operands leaves the category as it is, so the pattern fixes it. -/
theorem catField_eq_of_masked {p : Word} (h : w &&& 0xF000#16 = p) : catField w = catField p := by
  have hmask : catField 0xF000#16 = BitVec.allOnes 4 := by decide
  calc catField w = catField w &&& catField 0xF000#16 := by rw [hmask, BitVec.and_allOnes]
    _ = catField (w &&& 0xF000#16) := BitVec.extractLsb'_and.symm
    _ = catField p := by rw [h]

theorem template_accepts_of_decode (h : decode w = .op i) : i.template.accepts w :=
  encode_of_decode h ▸ template_accepts_encode i

/-- A word that a row of the opcode map accepts decodes to an instruction of that row (30_encoding.md R53). -/
theorem decode_of_template_accepts (h : i.template.accepts w) : ∃ j, decode w = .op j ∧ j.template = i.template := by
  cases i with
  | cls =>
    have hw : w = 0x00E0#16 := BitVec.and_allOnes.symm.trans h
    exact ⟨.cls, decode_eq_op_iff.2 (.inl ⟨hw, rfl⟩), rfl⟩
  | jp nnn =>
    have hc : catField w = 0x1#4 := (catField_eq_of_masked (p := 0x1000#16) h).trans (by decide)
    exact ⟨.jp (nnnField w), by simp [decode_eq_op_iff, hc], rfl⟩
  | ldV x nn =>
    have hc : catField w = 0x6#4 := (catField_eq_of_masked (p := 0x6000#16) h).trans (by decide)
    exact ⟨.ldV _ _, decode_eq_ldV_iff.2 ⟨hc, rfl, rfl⟩, rfl⟩
  | addV x nn =>
    have hc : catField w = 0x7#4 := (catField_eq_of_masked (p := 0x7000#16) h).trans (by decide)
    exact ⟨.addV _ _, decode_eq_addV_iff.2 ⟨hc, rfl, rfl⟩, rfl⟩
  | ldI nnn =>
    have hc : catField w = 0xA#4 := (catField_eq_of_masked (p := 0xA000#16) h).trans (by decide)
    exact ⟨.ldI (nnnField w), by simp [decode_eq_op_iff, hc], rfl⟩
  | drw x y n =>
    have hc : catField w = 0xD#4 := (catField_eq_of_masked (p := 0xD000#16) h).trans (by decide)
    exact ⟨.drw _ _ _, decode_eq_drw_iff.2 ⟨hc, rfl, rfl, rfl⟩, rfl⟩

theorem decode_of_mem_opcodeMap {t : Template} (ht : t ∈ opcodeMap) (h : t.accepts w) :
    ∃ j, decode w = .op j ∧ j.template = t := by
  obtain ⟨i, rfl⟩ := exists_template_of_mem_opcodeMap ht
  exact decode_of_template_accepts h

end Sys2Proof

/-! ### The statements about the encoding (30_encoding.md) -/

namespace Sys2Proof.Proofs

/-- Settles O13: in category 0 the decoder compares the whole word. -/
theorem categoryZeroHoldsOneInstruction : Obligations.CategoryZeroHoldsOneInstruction :=
  ⟨decode_eq_op_iff.2 (.inl ⟨rfl, rfl⟩), fun _ hlt hne => decode_category_zero hlt hne⟩

/-- Settles O12: a template accepts the words that decode to its own instructions, so the decoder being a function keeps
templates apart, and its being undone by the encoder keeps words apart. -/
theorem decodingIsUnique : Obligations.DecodingIsUnique := by
  refine ⟨fun t ht u hu w htw huw => ?_, by decide, fun t ht w hlt htw => ?_, fun w => ⟨?_, ?_⟩,
    fun t ht w v htw htv hne => ?_⟩
  · obtain ⟨i, hi, rfl⟩ := decode_of_mem_opcodeMap ht htw
    obtain ⟨j, hj, rfl⟩ := decode_of_mem_opcodeMap hu huw
    have hij : i = j := Decoded.op.inj (hi.symm.trans hj)
    rw [hij]
  · obtain ⟨i, hi, -⟩ := decode_of_mem_opcodeMap ht htw
    by_contra hne
    simp [decode_category_zero hlt hne] at hi
  · rintro ⟨i, hi⟩
    exact ⟨i.template, template_mem_opcodeMap i, template_accepts_of_decode hi⟩
  · rintro ⟨t, ht, htw⟩
    obtain ⟨i, hi, -⟩ := decode_of_mem_opcodeMap ht htw
    exact ⟨i, hi⟩
  · obtain ⟨i, hi, hit⟩ := decode_of_mem_opcodeMap ht htw
    obtain ⟨j, hj, hjt⟩ := decode_of_mem_opcodeMap ht htv
    refine ⟨i, j, hi, hj, hit, hjt, ?_⟩
    rintro rfl
    exact hne ((encode_of_decode hi).symm.trans (encode_of_decode hj))

/-- Settles O14: each field is the bits it names, and the decoder takes every register operand from the X and Y fields. -/
theorem fieldsAreExact : Obligations.FieldsAreExact := by
  refine ⟨fun w => ⟨catField_toNat w, xField_val w, yField_val w, nField_val w, nnField_toNat w, nnnField_toNat w, ?_, ?_,
    xField_val_eq_mask_shift w⟩, fun w x nn h => ?_, fun w x y n h => ?_⟩
  · rw [nnField_toNat, yField_val, nField_val]
    omega
  · rw [nnnField_toNat, xField_val, nnField_toNat]
    omega
  · rcases h with h | h
    · obtain ⟨-, rfl, -⟩ := decode_eq_ldV_iff.1 h
      exact xField_val w
    · obtain ⟨-, rfl, -⟩ := decode_eq_addV_iff.1 h
      exact xField_val w
  · obtain ⟨-, rfl, rfl, -⟩ := decode_eq_drw_iff.1 h
    exact ⟨xField_val w, yField_val w⟩

end Sys2Proof.Proofs

/-! ### What a faulting cycle leaves -/

namespace Sys2Proof.Machine

open Sys2Proof.Claims

variable {s t : State} {i : Instr} {w : Word}

/-- The word at pc, in the terms of the fetch port. -/
theorem fetches_iff : Fetches s w ↔ s.status = .running ∧ fetch s = some w := by
  rw [Fetches, fetch_eq_some]

/-- The sprite fault is the only change of status that an instruction makes (43_draw.md R85). -/
theorem exec_eq_takeSpriteFault_of_status_ne (h : exec i s = .next t) (hst : t.status ≠ s.status) :
    t = takeSpriteFault s i := by
  cases effect_of_exec h with
  | spriteFault x y n _ => rfl
  | _ => exact absurd rfl hst

/-- A step that leaves Running takes the fetch fault without a fetched word, or one of the two other faults with the word
fetched at pc (60_exceptions.md R87 to R89). -/
theorem step_fault_cases (hs : s.status = .running) (h : step s = .next t) (ht : t.status ≠ .running) :
    (fetch s = none ∧ t = takeFetchFault s) ∨
    (∃ w, Fetches s w ∧ t = takeUnimplemented s w) ∨
    (∃ w i, Fetches s w ∧ decode w = .op i ∧ t = takeSpriteFault s i) := by
  rcases step_cases s with ⟨hne, -⟩ | ⟨-, hf, he⟩ | ⟨w, -, hf, -, he⟩ | ⟨w, i, -, hf, hd, he⟩
  · exact absurd hs hne
  · exact .inl ⟨hf, Host.Outcome.next.inj (h.symm.trans he)⟩
  · exact .inr (.inl ⟨w, fetches_iff.2 ⟨hs, hf⟩, Host.Outcome.next.inj (h.symm.trans he)⟩)
  · have hst : t.status ≠ s.status := by rwa [hs]
    exact .inr (.inr ⟨w, i, fetches_iff.2 ⟨hs, hf⟩, hd, exec_eq_takeSpriteFault_of_status_ne (he.symm.trans h) hst⟩)

end Sys2Proof.Machine

/-! ### The statements about the cycle (40_cycle.md) -/

namespace Sys2Proof.Proofs

open Sys2Proof.Machine

/-- Settles O8: each of the three faults writes a record over the status before the cycle. The sprite fault records its
instruction's encoding, which is the fetched word because the encoder undoes the decoder. -/
theorem faultIsAllOrNothing : Obligations.FaultIsAllOrNothing := by
  intro s t hs h ht
  rcases step_fault_cases hs h ht with ⟨hf, rfl⟩ | ⟨w, hw, rfl⟩ | ⟨w, i, hw, hd, rfl⟩
  · exact ⟨.fetchOutOfBounds, none, rfl, .inl ⟨rfl, rfl, fetch_eq_none.1 hf⟩⟩
  · exact ⟨.unimplementedOpcode, some w, rfl, .inr ⟨by decide, w, hw, rfl⟩⟩
  · have hword : some (encode i) = some w := congrArg some (encode_of_decode hd)
    exact ⟨.spriteOutOfBounds, some (encode i), rfl, .inr ⟨by decide, w, hw, hword⟩⟩

end Sys2Proof.Proofs

/-! ### The words of the jump, and the step from the state a jump leaves -/

namespace Sys2Proof

theorem catField_append (c : BitVec 4) (nnn : Addr12) : catField (c ++ nnn) = c :=
  BitVec.extractLsb'_append_eq_left

theorem nnnField_append (c : BitVec 4) (nnn : Addr12) : nnnField (c ++ nnn) = nnn :=
  BitVec.extractLsb'_append_eq_right

theorem decode_jp_word (nnn : Addr12) : decode (0x1#4 ++ nnn) = .op (.jp nnn) := by
  rw [decode_eq_op_iff, catField_append, nnnField_append]
  exact .inr (.inl ⟨rfl, rfl⟩)

end Sys2Proof

namespace Sys2Proof.Machine

variable {s : State}

theorem step_of_fetch_eq_none (hst : s.status = .running) (hf : fetch s = none) :
    step s = .next (takeFetchFault s) := by
  simp only [step, hst, hf]

theorem step_of_decode_unimplemented {w : Word} (hst : s.status = .running) (hf : fetch s = some w)
    (hd : decode w = .unimplemented w) : step s = .next (takeUnimplemented s w) := by
  simp only [step, hst, hf, hd]

/-- The jump's target replaces the advanced pc, so a jump to the jump's own address leaves the state as it was. -/
theorem setPc_advance_self (s : State) : (advance s).setPc s.pc = s := rfl

/-- Of the targets a jump can name only 0xFFF is out of bounds for a fetch (20_memory.md R38). -/
theorem fetch_setPc_zeroExtend_eq_none_iff (s : State) (nnn : Addr12) :
    fetch (s.setPc (nnn.zeroExtend 16)) = none ↔ nnn = 0xFFF := by
  have hlt : nnn.toNat < 4096 := nnn.isLt
  rw [fetch_eq_none, State.setPc_pc, zeroExtend_toNat, ← BitVec.toNat_inj]
  change nnn.toNat + 1 > 0xFFF ↔ nnn.toNat = 0xFFF
  omega

end Sys2Proof.Machine

/-! ### The statements about clear-screen and jump (41_flow.md) -/

namespace Sys2Proof.Proofs

open Sys2Proof.Machine

/-- Settles O18: the state after the jump differs from the one before in pc alone, and pc decides how the next fetch and
step end. -/
theorem jumpSetsPc : Obligations.JumpSetsPc := by
  refine ⟨decode_jp_word, fun nnn s => ?_, fun nnn s hrun hpc => ?_⟩
  · refine ⟨(advance s).setPc (nnn.zeroExtend 16), rfl, rfl, zeroExtend_toNat nnn, fun r => rfl, rfl, fun a => rfl,
      fun px py => rfl, rfl, fetch_setPc_zeroExtend_eq_none_iff (advance s) nnn, fun hst hnnn => ?_, fun w hst hf hd => ?_⟩
    · subst hnnn
      exact step_of_fetch_eq_none hst ((fetch_setPc_zeroExtend_eq_none_iff (advance s) 0xFFF).2 rfl)
    · exact step_of_decode_unimplemented hst hf hd
  · calc step s = exec (.jp nnn) s := step_of_runs hrun
      _ = .next ((advance s).setPc s.pc) := by rw [hpc]; rfl
      _ = .next s := by rw [setPc_advance_self]

/-- Settles O17: the new display is the clear one, and besides it only pc differs, by the advance. -/
theorem clearScreenClears : Obligations.ClearScreenClears :=
  ⟨decode_eq_op_iff.2 (.inl ⟨rfl, rfl⟩), fun s => ⟨(advance s).setFB Display.unlit, rfl,
    fun px py => Display.read_unlit px py, advance_pc s, fun _ => rfl, rfl, fun _ => rfl, rfl⟩⟩

end Sys2Proof.Proofs

/-! ### The words of a category, a register and a byte -/

namespace Sys2Proof

theorem catField_append_nibble_append (c : BitVec 4) (x : RegIdx) (nn : Byte) : catField (c ++ nibble x ++ nn) = c := by
  rw [BitVec.append_assoc]
  exact catField_append c (nibble x ++ nn)

theorem nnField_append (cx : BitVec 8) (nn : Byte) : nnField (cx ++ nn) = nn :=
  BitVec.extractLsb'_append_eq_right

/-- The category and the register stand in the high byte, the register in that byte's low nibble. -/
theorem xField_append_nibble_append (c : BitVec 4) (x : RegIdx) (nn : Byte) : xField (c ++ nibble x ++ nn) = x := by
  have hx : (c ++ nibble x ++ nn : Word).extractLsb' 8 4 = nibble x := by
    rw [BitVec.extractLsb'_append_eq_of_le (by decide)]
    exact BitVec.extractLsb'_append_eq_right
  rw [xField, hx, nibble]

theorem decode_ldV_word (x : RegIdx) (nn : Byte) : decode (0x6#4 ++ nibble x ++ nn) = .op (.ldV x nn) :=
  decode_eq_ldV_iff.2 ⟨catField_append_nibble_append _ x nn, (xField_append_nibble_append _ x nn).symm,
    (nnField_append _ nn).symm⟩

theorem decode_addV_word (x : RegIdx) (nn : Byte) : decode (0x7#4 ++ nibble x ++ nn) = .op (.addV x nn) :=
  decode_eq_addV_iff.2 ⟨catField_append_nibble_append _ x nn, (xField_append_nibble_append _ x nn).symm,
    (nnField_append _ nn).symm⟩

end Sys2Proof

namespace Sys2Proof.Machine

/-- The frame of a register write after the advance: besides the register only pc differs, by the advance. -/
theorem setV_advance_frame (s : State) (x : RegIdx) (b : Byte) :
    (∀ r, r ≠ x → ((advance s).setV x b).readV r = s.readV r) ∧ ((advance s).setV x b).pc = s.pc + 2 ∧
    ((advance s).setV x b).I = s.I ∧ (∀ a, ((advance s).setV x b).memory.read a = s.memory.read a) ∧
    (∀ px py, ((advance s).setV x b).pixel px py = s.pixel px py) ∧ ((advance s).setV x b).status = s.status :=
  ⟨fun _ hr => State.readV_setV_of_ne (advance s) hr b, advance_pc s, rfl, fun _ => rfl, fun _ _ => rfl, rfl⟩

end Sys2Proof.Machine

/-! ### The statements about set-register and add-register (42_register_ops.md) -/

namespace Sys2Proof.Proofs

open Sys2Proof.Machine

/-- Settles O19: the written register holds the instruction's byte, and the register write's frame says the rest. -/
theorem setRegisterWritesItsByte : Obligations.SetRegisterWritesItsByte :=
  ⟨decode_ldV_word, fun x nn s => ⟨(advance s).setV x nn, rfl, State.readV_setV_same (advance s) x nn,
    setV_advance_frame s x nn⟩⟩

/-- Settles O20: byte addition is modulo 256, and by the register write's frame no carry reaches VF when X is not 15. -/
theorem addRegisterWraps : Obligations.AddRegisterWraps := by
  refine ⟨decode_addV_word, fun x nn s => ⟨(advance s).setV x (s.readV x + nn), rfl, ?_, setV_advance_frame s x _⟩⟩
  rw [State.readV_setV_same]
  exact BitVec.toNat_add (s.readV x) nn

end Sys2Proof.Proofs

/-! ### The state that a draw leaves, in the terms of the covered positions -/

namespace Sys2Proof.Machine

open Sys2Proof.Claims

variable {s : State} {x y : RegIdx} {n : RowCount} {px : Fin Config.width} {py : Fin Config.height}

/-- A draw whose sprite fits completes (43_draw.md R85). -/
theorem exec_drw_of_fits (x y : RegIdx) (h : SpriteFits s n) : exec (.drw x y n) s = .next (drawn s x y n) := by
  rcases execDrw_cases x y n s with ⟨hn, hout, -⟩ | ⟨-, he⟩
  · have := spriteFits_iff.1 h
    omega
  · exact he

/-- A sprite without rows fits wherever I points (43_draw.md R81). -/
theorem spriteFits_zero (s : State) : SpriteFits s 0 := spriteFits_iff.2 (.inl rfl)

theorem not_covered_zero : ¬ Covered s x y 0 px py := by
  rintro ⟨r, c, hr, -⟩
  exact absurd hr (Nat.not_lt_zero r)

theorem drawn_pixel_of_covered (h : Covered s x y n px py) : (drawn s x y n).pixel px py = !s.pixel px py :=
  Bool.eq_not.2 (drawn_pixel_ne_iff.2 h)

theorem drawn_pixel_of_not_covered (h : ¬ Covered s x y n px py) : (drawn s x y n).pixel px py = s.pixel px py :=
  not_not.1 (mt drawn_pixel_ne_iff.1 h)

theorem drawn_readV_of_ne {r : RegIdx} (h : r ≠ VF) : (drawn s x y n).readV r = s.readV r := by
  rw [drawn_readV, if_neg h]

/-- The draw engine's flag starts cleared, so it is set exactly by a covered pixel that was lit (43_draw.md R80). -/
theorem drawRows_collision_iff_covered_lit :
    (drawRows (originX s x) (originY s y) (rowsOf s n) ⟨s.FB, false⟩).collision = true ↔
      ∃ px py, Covered s x y n px py ∧ s.pixel px py = true := by
  simp only [drawRows_collision, Bool.false_eq_true, false_or, covered_iff]
  rfl

theorem drawn_readV_VF_of_hit (h : ∃ px py, Covered s x y n px py ∧ s.pixel px py = true) :
    (drawn s x y n).readV VF = 1 := by
  rw [drawn_readV, if_pos rfl, drawRows_collision_iff_covered_lit.2 h]
  rfl

theorem drawn_readV_VF_of_no_hit (h : ¬ ∃ px py, Covered s x y n px py ∧ s.pixel px py = true) :
    (drawn s x y n).readV VF = 0 := by
  rw [drawn_readV, if_pos rfl, Bool.eq_false_iff.2 (mt drawRows_collision_iff_covered_lit.1 h)]
  rfl

end Sys2Proof.Machine

/-! ### The statements about draw-sprite (43_draw.md) -/

namespace Sys2Proof.Proofs

open Sys2Proof.Machine

/-- Settles O22: the drawn state flips a pixel exactly when the sprite, placed from the state before, covers it. -/
theorem drawFlipsTheCoveredPixels : Obligations.DrawFlipsTheCoveredPixels :=
  fun s x y n hfit => ⟨drawn s x y n, exec_drw_of_fits x y hfit,
    fun _ _ => ⟨drawn_pixel_of_covered, drawn_pixel_of_not_covered⟩⟩

/-- Settles O23: the flag left in VF is set exactly by a covered pixel that was lit before the draw. -/
theorem drawReportsCollision : Obligations.DrawReportsCollision :=
  fun s x y n hfit => ⟨drawn s x y n, exec_drw_of_fits x y hfit, drawn_readV_VF_of_hit, drawn_readV_VF_of_no_hit⟩

/-- Settles O24: a draw that fits leaves the drawn state, one that does not changes status alone. -/
theorem drawFrame : Obligations.DrawFrame := by
  refine fun s x y n => ⟨fun hfit => ⟨drawn s x y n, exec_drw_of_fits x y hfit, rfl, rfl⟩, fun t h => ?_⟩
  cases effect_of_exec h with
  | spriteFault _ _ _ hout => exact ⟨fun _ => rfl, rfl, fun _ _ => rfl, .inr ⟨rfl, hout⟩⟩
  | drw => exact ⟨fun _ => rfl, rfl, fun _ => drawn_readV_of_ne, .inl rfl⟩

/-- Settles O25: a sprite without rows fits from every I and covers nothing, so no pixel flips and none is hit. -/
theorem drawOfNoRows : Obligations.DrawOfNoRows := by
  refine fun s x y => ⟨drawn s x y 0, exec_drw_of_fits x y (spriteFits_zero s),
    fun _ _ => drawn_pixel_of_not_covered not_covered_zero, drawn_readV_VF_of_no_hit ?_, fun _ => drawn_readV_of_ne, rfl, rfl,
    fun _ => rfl, rfl⟩
  rintro ⟨px, py, hcov, -⟩
  exact not_covered_zero hcov

end Sys2Proof.Proofs

/-! ### The causes of the three faults, and the machine after a fault -/

namespace Sys2Proof

variable {w : Word}

/-- The categories that hold no instruction (60_exceptions.md R87); category 0 is left to `decode_category_zero`. -/
theorem decode_unimplemented_category (h : w.toNat / 4096 ∈ [2, 3, 4, 5, 8, 9, 0xB, 0xC, 0xE, 0xF]) :
    decode w = .unimplemented w := by
  rw [← catField_toNat] at h
  simp only [List.mem_cons, List.not_mem_nil, or_false] at h
  rcases h with h | h | h | h | h | h | h | h | h | h <;> simp only [decode, h]

end Sys2Proof

namespace Sys2Proof.Machine

open Sys2Proof.Claims

variable {s : State} {i : Instr}

/-- The fetch fault follows from pc alone (60_exceptions.md R88). -/
theorem step_of_pc_past_end (hst : s.status = .running) (hpc : s.pc.toNat + 1 > 0xFFF) :
    step s = .next (takeFetchFault s) :=
  step_of_fetch_eq_none hst (fetch_eq_none.2 hpc)

/-- An instruction that completes and is no jump is followed by the fetch at pc + 2 (40_cycle.md R63). -/
theorem pc_of_runs_of_not_jp {t : State} (hrun : Runs s i) (hjp : ∀ nnn, i ≠ .jp nnn) (h : step s = .next t)
    (ht : t.status = .running) : t.pc = s.pc + 2 := by
  rw [step_of_runs hrun] at h
  rcases exec_pc_cases h ht with ⟨nnn, hi, -⟩ | ⟨-, hpc⟩
  · exact absurd hi (hjp nnn)
  · exact hpc

/-- A draw whose sprite does not fit takes the sprite fault (43_draw.md R85). -/
theorem exec_drw_of_not_fits {n : RowCount} (x y : RegIdx) (h : ¬ SpriteFits s n) :
    exec (.drw x y n) s = .next (takeSpriteFault s (.drw x y n)) := by
  rcases execDrw_cases x y n s with ⟨-, -, he⟩ | ⟨hin, -⟩
  · exact he
  · exact absurd (spriteFits_iff.2 hin) h

theorem step_of_faulted (h : s.status ≠ .running) : step s = .next s := by
  rcases step_cases s with ⟨-, hs⟩ | ⟨hst, -⟩ | ⟨_, hst, -⟩ | ⟨_, _, hst, -⟩
  · exact hs
  all_goals exact absurd hst h

/-- A state that a step answers with itself is the end of every run from it. -/
theorem run_of_step_self (h : step s = .next s) (k : Nat) : Sys2Proof.core.run k s = .next s := by
  induction k with
  | zero => rfl
  | succ k ih =>
    have hcore : Sys2Proof.core.step s = .next s := h
    simp only [Host.Core.run, hcore]
    exact ih

end Sys2Proof.Machine

/-! ### The statements about the faults (60_exceptions.md) -/

namespace Sys2Proof.Proofs

open Sys2Proof.Machine Sys2Proof.Claims

/-- Settles O5: with pc past 0xFFE the step is the fetch fault, and a jump to 0xFFF and the advance past 0xFFE both put pc
there. -/
theorem fetchPastTheEndFaults : Obligations.FetchPastTheEndFaults := by
  refine ⟨rfl, fun s hst hpc => ⟨step_of_pc_past_end hst hpc, fun hinv => ?_⟩, fun s hst => ?_,
    fun s t i hrun hpc hjp h ht => ?_⟩
  · have := hinv.pc_le
    omega
  · exact ⟨(advance s).setPc 0xFFF, rfl, step_of_pc_past_end hst (by rw [State.setPc_pc]; decide)⟩
  · have hpc' : t.pc = 0x1000 := by
      rw [pc_of_runs_of_not_jp hrun hjp h ht, hpc]
      rfl
    refine ⟨hpc', ?_⟩
    rw [← hpc']
    exact step_of_pc_past_end ht (by rw [hpc']; decide)

/-- Settles O6: the decoder rejects the whole unimplemented set, and the step then records the word it fetched. -/
theorem unimplementedWordFaults : Obligations.UnimplementedWordFaults := by
  refine ⟨rfl, fun s w hw hset => ?_⟩
  have hd : decode w = .unimplemented w := by
    rcases hset with ⟨hcat, hne⟩ | hcat
    · exact decode_category_zero (by omega) hne
    · exact decode_unimplemented_category hcat
  obtain ⟨hst, hf⟩ := fetches_iff.1 hw
  exact ⟨hd, step_of_decode_unimplemented hst hf hd⟩

/-- Settles O7: the step is the draw, which faults exactly when its sprite does not fit. The record's word is the draw's
encoding, which is the fetched word because the encoder undoes the decoder. -/
theorem spritePastTheEndFaults : Obligations.SpritePastTheEndFaults := by
  refine ⟨rfl, fun s w x y n hw hd => ?_⟩
  have hstep : step s = exec (.drw x y n) s := step_of_runs ⟨w, hw, hd⟩
  refine ⟨fun ⟨r, hr, hout⟩ => ?_, fun hfit => ?_⟩
  · have hnot : ¬ SpriteFits s n := fun hfit => absurd (hfit r hr) (Nat.not_le.2 hout)
    rw [hstep, exec_drw_of_not_fits x y hnot, takeSpriteFault, encode_of_decode hd, raiseFault]
  · obtain ⟨hst, -⟩ := fetches_iff.1 hw
    exact ⟨drawn s x y n, hstep.trans (exec_drw_of_fits x y hfit), hst⟩

/-- Settles O9: a step from Faulted answers its own state, and a run repeats that step. -/
theorem faultIsTerminal : Obligations.FaultIsTerminal := by
  intro s code addr word hst
  have hstep : step s = .next s := step_of_faulted (by simp [hst])
  exact ⟨hstep, run_of_step_self hstep⟩

end Sys2Proof.Proofs

/-! ### Boot: the images it refuses, and the state it makes of one that fits -/

namespace Sys2Proof.Machine

variable {image : List Byte} {report : ImageReport} {e : BootError}

/-- An image past MAX_IMAGE is refused (70_reset_and_hazards.md R103). -/
theorem boot_of_too_long (h : Config.maxImage < image.length) : boot (.bytes image) = .error .loadImageTooLarge :=
  if_pos h

/-- An image that fits is loaded at PROG_BASE over the reset state (70_reset_and_hazards.md R102). -/
theorem boot_of_fits (h : image.length ≤ Config.maxImage) : boot (.bytes image) =
    .ok { State.reset with memory := State.reset.memory.load Config.progBase image } :=
  if_neg (Nat.not_lt.2 h)

/-- After a boot that fails the host has no core (70_reset_and_hazards.md R103, R104). -/
theorem interact_boot_of_error (h : boot report = .error e) : interact none (.boot report) = (none, .bootFailed e) := by
  simp only [interact, h]

/-- The sprite port finds byte i of an image that fits at 0x200 + i (70_reset_and_hazards.md R102). -/
theorem read_load_of_fits (h : image.length ≤ Config.maxImage) {i : Nat} (hi : i < image.length) :
    (State.reset.memory.load Config.progBase image).read (Config.progBase + i) = some image[i] := by
  have hspace : Config.progBase + image.length ≤ Config.memSize := Nat.add_le_add_left h Config.progBase
  refine Memory.read_eq_some.2 ⟨by omega, ?_⟩
  rw [Memory.peek_load image reset_memory_wf hspace, if_pos (Nat.le_add_right _ i), Nat.add_sub_cancel_left,
    List.getElem?_eq_getElem hi, Option.getD_some]

end Sys2Proof.Machine

/-! ### The statements about boot (70_reset_and_hazards.md) -/

namespace Sys2Proof.Proofs

open Sys2Proof.Machine

/-- Settles O39: boot compares the length with MAX_IMAGE before it loads a byte, a boot that fails leaves the host without
a core, and an image of exactly MAX_IMAGE bytes still fits. -/
theorem bootRefuses : Obligations.BootRefuses := by
  refine ⟨fun image hlong => ?_, ⟨rfl, interact_boot_of_error rfl⟩, fun image hlen => ?_⟩
  · have hboot : boot (.bytes image) = .error .loadImageTooLarge := boot_of_too_long hlong
    exact ⟨hboot, interact_boot_of_error hboot⟩
  · have hfits : image.length ≤ Config.maxImage := hlen.le
    exact ⟨_, boot_of_fits hfits, fun i hi => read_load_of_fits hfits hi⟩

end Sys2Proof.Proofs

/-! ### The word of every instruction decodes to it -/

namespace Sys2Proof

/-- A draw's word has two nibbles where a register instruction's word has its byte. -/
theorem drw_word_eq (x y : RegIdx) (n : RowCount) :
    0xD#4 ++ nibble x ++ nibble y ++ nibble n = 0xD#4 ++ nibble x ++ (nibble y ++ nibble n) :=
  BitVec.append_assoc

/-- Y is the high nibble of the word's low byte. -/
theorem yField_append_nibble_append (cx : BitVec 8) (y n : Fin 16) : yField (cx ++ (nibble y ++ nibble n)) = y := by
  have hy : (cx ++ (nibble y ++ nibble n) : Word).extractLsb' 4 4 = nibble y := by
    rw [BitVec.extractLsb'_append_eq_of_add_le (by decide)]
    exact BitVec.extractLsb'_append_eq_left
  rw [yField, hy, nibble]

/-- N is the low nibble of the word's low byte. -/
theorem nField_append_nibble (cxy : BitVec 12) (n : RowCount) : nField (cxy ++ nibble n) = n := by
  have hn : (cxy ++ nibble n : Word).extractLsb' 0 4 = nibble n := BitVec.extractLsb'_append_eq_right
  rw [nField, hn, nibble]

theorem decode_ldI_word (nnn : Addr12) : decode (0xA#4 ++ nnn) = .op (.ldI nnn) := by
  rw [decode_eq_op_iff, catField_append, nnnField_append]
  exact .inr (.inr (.inr (.inr (.inl ⟨rfl, rfl⟩))))

theorem decode_drw_word (x y : RegIdx) (n : RowCount) :
    decode (0xD#4 ++ nibble x ++ nibble y ++ nibble n) = .op (.drw x y n) := by
  refine decode_eq_drw_iff.2 ⟨?_, ?_, ?_, (nField_append_nibble _ n).symm⟩ <;> rw [drw_word_eq]
  · exact catField_append_nibble_append _ x _
  · exact (xField_append_nibble_append _ x _).symm
  · exact (yField_append_nibble_append _ y n).symm

/-- The decoder undoes the encoder (30_encoding.md R53). -/
@[simp] theorem decode_encode (i : Instr) : decode (encode i) = .op i := by
  cases i with
  | cls => exact decode_eq_op_iff.2 (.inl ⟨rfl, rfl⟩)
  | jp nnn => exact decode_jp_word nnn
  | ldV x nn => exact decode_ldV_word x nn
  | addV x nn => exact decode_addV_word x nn
  | ldI nnn => exact decode_ldI_word nnn
  | drw x y n => exact decode_drw_word x y n

end Sys2Proof

/-! ### Decoding and encoding agree (30_encoding.md section 3) -/

namespace Sys2Proof.Proofs

/-- Settles O11: encoder and decoder undo each other, the first by the category and fields of a decoded word, the second by
those of each instruction's word. -/
theorem decodeAndEncodeAgree : Obligations.DecodeAndEncodeAgree := by
  refine fun w i => ⟨encode_of_decode, ?_⟩
  rintro rfl
  exact decode_encode i

/-- Settles O15: the six words are encodings, 0x0010 is a word of category 0 and 0x8014 one of category 8. -/
theorem writtenOutWordsDecode : Obligations.WrittenOutWordsDecode :=
  ⟨decode_encode .cls, decode_encode (.jp 0xFFF), decode_encode (.ldV 10 0x42), decode_encode (.addV 15 0x01),
    decode_encode (.ldI 0x20A), decode_encode (.drw 15 14 15), decode_category_zero (by decide) (by decide),
    decode_unimplemented_category (by decide)⟩

end Sys2Proof.Proofs

/-! ### What every step keeps: the invariant of Safety.lean -/

namespace Sys2Proof.Machine

open Sys2Proof.Claims

variable {s t : State} {i : Instr} {w : Word}

/-! ### The fault record -/

theorem recordExplained_of_running (hst : s.status = .running) : RecordExplained s := by
  simp only [RecordExplained, hst]

theorem recordExplained_takeFetchFault (hf : fetch s = none) : RecordExplained (takeFetchFault s) :=
  ⟨rfl, rfl, hf⟩

theorem recordExplained_takeUnimplemented (hf : fetch s = some w) (hd : decode w = .unimplemented w) :
    RecordExplained (takeUnimplemented s w) :=
  ⟨rfl, w, hf, rfl, hd⟩

/-- The sprite port refuses exactly a sprite that does not fit (20_memory.md R39). -/
theorem spriteRows_eq_none_iff {n : RowCount} : spriteRows s n = none ↔ ¬ SpriteFits s n := by
  rw [spriteRows, Memory.readRows_eq_none, spriteFits_iff]
  simp only [Config.memSize]
  omega

/-- The record of a sprite fault holds the fetched word, because the encoder undoes the decoder. -/
theorem recordExplained_takeSpriteFault {x y : RegIdx} {n : RowCount} (hf : fetch s = some w)
    (hd : decode w = .op (.drw x y n)) (hout : ¬ SpriteFits s n) :
    RecordExplained (takeSpriteFault s (.drw x y n)) :=
  ⟨rfl, w, x, y, n, hf, congrArg some (encode_of_decode hd), hd, spriteRows_eq_none_iff.2 hout⟩

/-- Whatever record stands after a step explains itself: in Faulted the old one stays, and in Running each way to a fault
writes the record that its cause calls for. -/
theorem step_keeps_recordExplained (hs : RecordExplained s) (h : step s = .next t) : RecordExplained t := by
  rcases step_cases s with ⟨-, he⟩ | ⟨-, hf, he⟩ | ⟨w, -, hf, hd, he⟩ | ⟨w, i, hst, hf, hd, he⟩ <;> rw [he] at h
  · obtain rfl := Host.Outcome.next.inj h
    exact hs
  · obtain rfl := Host.Outcome.next.inj h
    exact recordExplained_takeFetchFault hf
  · obtain rfl := Host.Outcome.next.inj h
    exact recordExplained_takeUnimplemented hf hd
  · cases effect_of_exec h with
    | spriteFault x y n hout => exact recordExplained_takeSpriteFault hf hd hout
    | _ => exact recordExplained_of_running hst

/-! ### pc and I -/

/-- From an address where a fetch is in bounds the advance leads to 0x1000 at most. -/
theorem pc_add_two_le_of_runs (h : Runs s i) : (s.pc + 2).toNat ≤ 0x1000 := by
  obtain ⟨w, -, hf, -⟩ := runs_iff.1 h
  have hbound : s.pc.toNat + 1 ≤ 0xFFF := (fetch_eq_some.1 hf).1
  rw [pc_add_two_toNat_of_runs h]
  omega

/-- A fault leaves pc, a jump puts a 12-bit target there, and every other instruction has advanced it (10_state.md R18). -/
theorem step_keeps_pc_le (hs : s.pc.toNat ≤ 0x1000) (h : step s = .next t) : t.pc.toNat ≤ 0x1000 := by
  rcases step_next_cases h with ⟨_, _, _, rfl⟩ | ⟨i, hrun, he⟩
  · exact hs
  · cases effect_of_exec he with
    | jp nnn =>
      rw [State.setPc_pc, zeroExtend_toNat]
      exact nnn.isLt.le
    | spriteFault x y n _ => exact hs
    | _ => exact pc_add_two_le_of_runs hrun

theorem step_keeps_I_le (hs : s.I.toNat ≤ 0xFFF) (h : step s = .next t) : t.I.toNat ≤ 0xFFF :=
  (Proofs.addressRegisterStaysTwelveBits.2.2 s t hs h).1

/-! ### The invariant -/

theorem step_keeps_inv (hs : Inv s) (h : step s = .next t) : Inv t where
  memory_wf := by rw [step_keeps_memory h]; exact hs.memory_wf
  pc_le := step_keeps_pc_le hs.pc_le h
  I_le := step_keeps_I_le hs.I_le h
  record := step_keeps_recordExplained hs.record h

/-- A machine about to run its first cycle meets the invariant whatever memory in canonical form it holds. -/
theorem inv_reset_with_memory {m : Memory} (hm : m.wf = true) : Inv { State.reset with memory := m } where
  memory_wf := hm
  pc_le := show State.reset.pc.toNat ≤ 0x1000 by decide
  I_le := show State.reset.I.toNat ≤ 0xFFF by decide
  record := trivial

/-- Boot makes the reset state with an image that fits loaded at PROG_BASE, and no other state
(70_reset_and_hazards.md R102 to R104). -/
theorem boot_eq_ok_iff {report : ImageReport} : boot report = .ok s ↔
    ∃ image, report = .bytes image ∧ image.length ≤ Config.maxImage ∧
      s = { State.reset with memory := State.reset.memory.load Config.progBase image } := by
  constructor
  · intro h
    cases report with
    | unreadable => exact absurd h (by simp [boot])
    | bytes image =>
      rcases Nat.lt_or_ge Config.maxImage image.length with hlong | hfits
      · rw [boot_of_too_long hlong] at h
        exact absurd h (by simp)
      · rw [boot_of_fits hfits] at h
        exact ⟨image, rfl, hfits, (Except.ok.inj h).symm⟩
  · rintro ⟨image, rfl, hfits, rfl⟩
    exact boot_of_fits hfits

theorem boot_inv {report : ImageReport} (h : boot report = .ok s) : Inv s := by
  obtain ⟨image, -, hfits, rfl⟩ := boot_eq_ok_iff.1 h
  exact inv_reset_with_memory (Memory.wf_load image reset_memory_wf (Nat.add_le_add_left hfits Config.progBase))

end Sys2Proof.Machine

/-! ### The statements about the invariant -/

namespace Sys2Proof.Proofs

open Sys2Proof.Machine

/-- Settles O34, from what every step keeps of memory, pc, I and the fault record. -/
theorem everyStepKeepsTheInvariant : Obligations.EveryStepKeepsTheInvariant :=
  fun _ _ => step_keeps_inv

/-- Settles O35: at reset memory is empty, pc is RESET_PC, I is 0 and there is no fault record. -/
theorem invariantHoldsAtReset : Obligations.InvariantHoldsAtReset :=
  inv_reset_with_memory reset_memory_wf

/-- Settles O36: an image that fits is loaded in canonical form over the reset state, and every tick keeps the invariant. -/
theorem invariantHoldsOnEveryRun : Obligations.InvariantHoldsOnEveryRun :=
  fun _ _ k hboot => ticks_keeps (P := Inv) (fun _ _ => step_keeps_inv) k (boot_inv hboot)

end Sys2Proof.Proofs

/-! ### Runs of many ticks, and a listing's lines -/

namespace Sys2Proof.Machine

open Sys2Proof.Claims

variable {s : State} {k : Nat}

/-- A run of the interface's core ends in the state after its ticks (40_cycle.md R69). -/
theorem run_eq_next_ticks (k : Nat) (s : State) : Sys2Proof.core.run k s = .next (ticks k s) := by
  induction k generalizing s with
  | zero => rfl
  | succ k ih =>
    have hcore : Sys2Proof.core.step s = .next (tick s) := step_eq_next_tick s
    simp only [Host.Core.run, hcore]
    exact ih (tick s)

theorem ticks_add (j m : Nat) (s : State) : ticks (j + m) s = ticks m (ticks j s) := by
  induction j generalizing s with
  | zero => rw [Nat.zero_add, ticks]
  | succ j ih => rw [Nat.succ_add, ticks, ih, ticks]

/-- No number of ticks leaves Faulted (60_exceptions.md R94). -/
theorem ticks_keeps_faulted (k : Nat) (h : s.status ≠ .running) : (ticks k s).status ≠ .running := by
  refine ticks_keeps (P := fun t => t.status ≠ .running) (fun t u ht hstep => ?_) k h
  obtain rfl := Host.Outcome.next.inj ((step_of_faulted ht).symm.trans hstep)
  exact ht

/-- A machine that is Running after `k` ticks was Running after each tick before. -/
theorem running_of_ticks_running (h : (ticks k s).status = .running) {j : Nat} (hj : j ≤ k) :
    (ticks j s).status = .running := by
  by_contra hfault
  obtain ⟨m, rfl⟩ := Nat.exists_eq_add_of_le hj
  rw [ticks_add] at h
  exact ticks_keeps_faulted m hfault h

end Sys2Proof.Machine

/-! ### The statements about ticks and runs (40_cycle.md, 60_exceptions.md) -/

namespace Sys2Proof.Proofs

open Sys2Proof.Machine Sys2Proof.Claims

/-- Settles O4: every case of the step answers a next state, and a run strings those together. -/
theorem everyTickCompletes : Obligations.EveryTickCompletes :=
  ⟨step_completes, fun k s => ⟨ticks k s, run_eq_next_ticks k s⟩⟩

/-- Settles O10: a fault would be seen at the end, since no tick leaves Faulted. -/
theorem faultFreeIsSeenAtTheEnd : Obligations.FaultFreeIsSeenAtTheEnd :=
  fun _ _ => ⟨fun hfree => hfree _ le_rfl, fun hend _ hj => running_of_ticks_running hend hj⟩

/-- Settles O1: an instruction that completes advanced pc, unless it is a jump. -/
theorem stepRunsTheDecodedInstruction : Obligations.StepRunsTheDecodedInstruction := by
  intro s w i hw hd
  have hrun : Runs s i := ⟨w, hw, hd⟩
  have hstep : step s = exec i s := step_of_runs hrun
  exact ⟨hstep, fun t he ht hjp => pc_of_runs_of_not_jp hrun hjp (hstep.trans he) ht⟩

/-- Settles O21: NNN passes the mask of the write of I, and a sprite of two rows from 0xFFF has its second row past the
end. -/
theorem setAddressWritesI : Obligations.SetAddressWritesI := by
  refine ⟨decode_ldI_word, fun nnn s => ?_⟩
  have hI : ((advance s).setI (nnn.zeroExtend 16)).I = nnn.zeroExtend 16 := setI_zeroExtend_I (advance s) nnn
  have hnum : ((advance s).setI (nnn.zeroExtend 16)).I.toNat = nnn.toNat := by rw [hI, zeroExtend_toNat]
  refine ⟨(advance s).setI (nnn.zeroExtend 16), rfl, hI, hnum, fun _ => rfl, rfl, fun _ => rfl, fun _ _ => rfl, rfl,
    fun hnnn x y n hn => ?_⟩
  refine exec_drw_of_not_fits x y fun hfit => ?_
  have hrow := hfit 1 (by omega)
  rw [hnum, hnnn] at hrow
  exact absurd hrow (by decide)

end Sys2Proof.Proofs

/-! ### Assembling a line of a listing -/

namespace Sys2Proof

variable {l : AsmLine} {i : Instr}

theorem val_ofNat_of_fits {v : Nat} (h : v < 2 ^ 4) : (Fin.ofNat 16 v).val = v := Nat.mod_eq_of_lt h

/-- A well-formed line is the line of the instruction it writes, since no operand is cut to its field (30_encoding.md R60). -/
theorem eq_line_of_wellFormed (hwf : l.wellFormed = true) (h : l.instr? = some i) : l = i.line := by
  cases l with
  | cls =>
    obtain rfl := Option.some.inj h
    rfl
  | db b => exact absurd h (by simp [AsmLine.instr?])
  | jp nnn | ldI nnn =>
    obtain rfl := Option.some.inj h
    have hnnn : nnn < 2 ^ 12 := by simpa [AsmLine.wellFormed] using hwf
    simp only [Instr.line, BitVec.toNat_ofNat, Nat.mod_eq_of_lt hnnn]
  | ldV x nn | addV x nn =>
    obtain rfl := Option.some.inj h
    obtain ⟨hx, hnn⟩ : x < 2 ^ 4 ∧ nn < 2 ^ 8 := by simpa [AsmLine.wellFormed] using hwf
    simp only [Instr.line, val_ofNat_of_fits hx, BitVec.toNat_ofNat, Nat.mod_eq_of_lt hnn]
  | drw x y n =>
    obtain rfl := Option.some.inj h
    obtain ⟨⟨hx, hy⟩, hn⟩ : (x < 2 ^ 4 ∧ y < 2 ^ 4) ∧ n < 2 ^ 4 := by simpa [AsmLine.wellFormed] using hwf
    simp only [Instr.line, val_ofNat_of_fits hx, val_ofNat_of_fits hy, val_ofNat_of_fits hn]

theorem assemble_of_not_wellFormed (h : l.wellFormed = false) : l.assemble = none := by
  simp [AsmLine.assemble, h]

/-- A well-formed line is a data byte, or the line of an instruction whose word's two bytes it assembles to. -/
theorem assemble_of_wellFormed (hwf : l.wellFormed = true) :
    (∃ b : Byte, l = .db b.toNat ∧ l.assemble = some [b]) ∨
    (∃ i : Instr, l = i.line ∧ l.assemble = some (bytesOfWord (encode i))) := by
  cases l with
  | db b =>
    have hb : b < 2 ^ 8 := by simpa [AsmLine.wellFormed] using hwf
    have hbyte : (BitVec.ofNat 8 b).toNat = b := BitVec.toNat_ofNat b 8 ▸ Nat.mod_eq_of_lt hb
    exact .inl ⟨BitVec.ofNat 8 b, by rw [hbyte], by rw [AsmLine.assemble, if_pos hwf]⟩
  | _ => exact .inr ⟨_, eq_line_of_wellFormed hwf rfl, if_pos hwf⟩

end Sys2Proof

namespace Sys2Proof.Proofs

/-- Settles O16: a line that is not well formed does not assemble, and one that is gives its data byte, or the word that
decodes to its instruction because the decoder undoes the encoder. -/
theorem assembledLinesDecode : Obligations.AssembledLinesDecode := by
  intro l
  cases hwf : l.wellFormed with
  | false =>
    have hnone := assemble_of_not_wellFormed hwf
    simp [hnone]
  | true =>
    rcases assemble_of_wellFormed hwf with ⟨b, hl, ha⟩ | ⟨i, hl, ha⟩
    · refine ⟨by simp [ha], fun bs hbs => .inl ⟨b, hl, ?_⟩⟩
      exact Option.some.inj (hbs.symm.trans ha)
    · refine ⟨by simp [ha], fun bs hbs => .inr ⟨i, hl, ?_⟩⟩
      obtain rfl := Option.some.inj (ha.symm.trans hbs)
      refine ⟨rfl, ?_⟩
      rw [← decode_encode i]
      exact decodeBytes_bytesOfWord (encode i) []

end Sys2Proof.Proofs

/-! ### The reset state, and what boot leaves outside the image -/

namespace Sys2Proof.Machine

variable {image : List Byte} {a : Nat}

/-- At reset every address of the space reads 0x00 (10_state.md R31). -/
theorem reset_read (h : a ≤ 0xFFF) : State.reset.memory.read a = some 0 :=
  Memory.read_eq_some.2 ⟨Nat.lt_succ_of_le h, rfl⟩

/-- Boot writes no byte outside the image (70_reset_and_hazards.md R102). -/
theorem read_load_outside (hfits : image.length ≤ Config.maxImage) (ha : a ≤ 0xFFF)
    (hout : a < Config.progBase ∨ Config.progBase + image.length ≤ a) :
    (State.reset.memory.load Config.progBase image).read a = some 0 := by
  refine Memory.read_eq_some.2 ⟨Nat.lt_succ_of_le ha, ?_⟩
  rw [Memory.peek_load image reset_memory_wf (Nat.add_le_add_left hfits Config.progBase)]
  rcases hout with hbelow | habove
  · exact if_neg (Nat.not_le.2 hbelow)
  · have hnone : image[a - Config.progBase]? = none := List.getElem?_eq_none (Nat.le_sub_of_add_le' habove)
    rw [if_pos (Nat.le_of_add_right_le habove), hnone]
    rfl

/-- The two zero bytes at RESET_PC are a word of category 0 that is not CLS (70_reset_and_hazards.md R105). -/
theorem step_reset : step State.reset = .next (takeUnimplemented State.reset 0) :=
  step_of_decode_unimplemented rfl (fetch_eq_some.2 ⟨by decide, by decide⟩)
    (decode_category_zero (by decide) (by decide))

/-- The host's tick is the step (00_scope.md R6). -/
theorem tick_eq_of_step {s t : State} (h : step s = .next t) : tick s = t :=
  Host.Outcome.next.inj ((step_eq_next_tick s).symm.trans h)

/-- Without a core only boot is there (00_scope.md R6). -/
theorem interact_none_of_not_boot {action : HostAction} (h : ∀ report, action ≠ .boot report) :
    interact none action = (none, .notOffered) := by
  cases action with
  | boot report => exact absurd rfl (h report)
  | _ => rfl

end Sys2Proof.Machine

/-! ### The statements about reset, boot and the host (10_state.md, 70_reset_and_hazards.md, 00_scope.md) -/

namespace Sys2Proof.Proofs

open Sys2Proof.Machine

/-- Settles O37: memory is empty, the registers are sixteen zero bytes and the display is the clear one. -/
theorem resetValues : Obligations.ResetValues :=
  ⟨fun _ => reset_read, rfl, rfl, fun r => Vector.getElem_replicate r.isLt, Display.read_unlit, rfl⟩

/-- Settles O38: the load port puts the image's bytes at 0x200 + i and touches no other address and no other part. -/
theorem bootLoadsTheImage : Obligations.BootLoadsTheImage :=
  ⟨fun _ hfits => ⟨_, boot_of_fits hfits, fun _ hi => read_load_of_fits hfits hi,
    fun _ ha hout => read_load_outside hfits ha hout, rfl⟩, fun _ _ => rfl⟩

/-- Settles O40: boot loads no byte over the reset state, whose first step is the unimplemented-opcode fault. -/
theorem emptyImageFaultsAtOnce : Obligations.EmptyImageFaultsAtOnce :=
  ⟨State.reset, boot_of_fits (Nat.zero_le _), rfl, step_reset⟩

/-- Settles O41: a tick is the step's next state, and each other interaction answers as the host's table says. -/
theorem hostOnlyBootsTicksAndReads : Obligations.HostOnlyBootsTicksAndReads := by
  refine ⟨fun s t h => ?_, fun s => ⟨rfl, rfl, rfl⟩, fun action => interact_none_of_not_boot⟩
  rw [interact, tick_eq_of_step h]

end Sys2Proof.Proofs

/-! ### The same sprite drawn again -/

namespace Sys2Proof.Machine

open Sys2Proof.Claims

variable {s s' : State} {x y : RegIdx} {n : RowCount} {px : Fin Config.width} {py : Fin Config.height}

/-- What a sprite covers depends on V[X], V[Y], I and the sprite's bytes alone (43_draw.md R77, R78). -/
theorem covered_congr (hx : s'.readV x = s.readV x) (hy : s'.readV y = s.readV y) (hI : s'.I = s.I)
    (hrows : ∀ r < n.val, s'.memory.peek (s.I.toNat + r) = s.memory.peek (s.I.toNat + r)) :
    Covered s' x y n px py ↔ Covered s x y n px py := by
  simp only [Covered, hx, hy, hI]
  refine exists_congr fun r => exists_congr fun c => and_congr_right fun hr => ?_
  rw [hrows r hr]

/-- A flip of the same positions takes the first one back (43_draw.md R84). -/
theorem drawn_pixel_of_redraw (hpix : s'.pixel px py = (drawn s x y n).pixel px py)
    (hcov : Covered s' x y n px py ↔ Covered s x y n px py) : (drawn s' x y n).pixel px py = s.pixel px py := by
  by_cases hc : Covered s x y n px py
  · rw [drawn_pixel_of_covered (hcov.2 hc), hpix, drawn_pixel_of_covered hc, Bool.not_not]
  · rw [drawn_pixel_of_not_covered (mt hcov.1 hc), hpix, drawn_pixel_of_not_covered hc]

/-- A draw lights exactly the covered pixels that are lit after it. -/
theorem lights_iff_covered_and_lit :
    s.pixel px py = false ∧ (drawn s x y n).pixel px py = true ↔
      Covered s x y n px py ∧ (drawn s x y n).pixel px py = true := by
  refine and_congr_left fun hlit => ?_
  rw [← drawn_pixel_ne_iff, hlit, ← Bool.not_eq_true, ne_comm]

end Sys2Proof.Machine

/-! ### The statement about erase by redraw (43_draw.md R84) -/

namespace Sys2Proof.Proofs

open Sys2Proof.Machine Sys2Proof.Claims

/-- Settles O26: the second sprite covers what the first covered, so it flips every flipped pixel back, and it hits exactly
the pixels that the first draw lit. The same word repeated draws from V[X] and V[Y] again, unless the first draw's flag went
to one of them. -/
theorem redrawErases : Obligations.RedrawErases := by
  intro s t x y n hfit h
  obtain rfl := Host.Outcome.next.inj ((exec_drw_of_fits x y hfit).symm.trans h)
  refine ⟨fun s' hpix hx hy hI hrows => ?_, fun hx hy => ?_⟩
  · have hcov px py : Covered s' x y n px py ↔ Covered s x y n px py := covered_congr hx hy hI hrows
    have hfit' : SpriteFits s' n := by rwa [SpriteFits, hI]
    have hhit : (∃ px py, s.pixel px py = false ∧ (drawn s x y n).pixel px py = true) ↔
        ∃ px py, Covered s' x y n px py ∧ s'.pixel px py = true := by
      simp only [lights_iff_covered_and_lit, hcov, hpix]
    exact ⟨drawn s' x y n, exec_drw_of_fits x y hfit', fun px py => drawn_pixel_of_redraw (hpix px py) (hcov px py),
      fun hlit => drawn_readV_VF_of_hit (hhit.1 hlit), fun hnone => drawn_readV_VF_of_no_hit (mt hhit.2 hnone)⟩
  · have hcov px py : Covered (drawn s x y n) x y n px py ↔ Covered s x y n px py :=
      covered_congr (drawn_readV_of_ne hx) (drawn_readV_of_ne hy) rfl fun _ _ => rfl
    exact ⟨drawn (drawn s x y n) x y n, exec_drw_of_fits x y hfit, fun px py => drawn_pixel_of_redraw rfl (hcov px py)⟩

end Sys2Proof.Proofs

/-! ### A register that an instruction does not read, and the display, changed before it runs -/

namespace Sys2Proof.Machine

open Sys2Proof.Claims

variable {s t : State} {i : Instr}

/-- A register write hides an earlier write of the same register, and commutes with one of another. -/
theorem setV_setV (s : State) (r x : RegIdx) (b c : Byte) :
    (s.setV r b).setV x c = if x = r then s.setV x c else (s.setV x c).setV r b := by
  split
  · next h =>
    subst h
    simp only [State.setV, Vector.set_set]
  · next h =>
    have hne : r.val ≠ x.val := fun hval => h (Fin.ext hval.symm)
    simp only [State.setV, Vector.set_comm _ _ hne]

theorem setV_setV_same (s : State) (r : RegIdx) (b c : Byte) : (s.setV r b).setV r c = s.setV r c :=
  (setV_setV s r r b c).trans (if_pos rfl)

/-- A draw places its sprite by V[X] and V[Y], so another register's byte stays beside its result, unless that register is
VF, which the flag overwrites. -/
theorem drawn_setV {r x y : RegIdx} (hx : r ≠ x) (hy : r ≠ y) (s : State) (b : Byte) (n : RowCount) :
    drawn (s.setV r b) x y n = if VF = r then drawn s x y n else (drawn s x y n).setV r b := by
  have hox : originX (s.setV r b) x = originX s x := by rw [originX, originX, State.readV_setV_of_ne s hx.symm]
  have hoy : originY (s.setV r b) y = originY s y := by rw [originY, originY, State.readV_setV_of_ne s hy.symm]
  have hrows : rowsOf (s.setV r b) n = rowsOf s n := rfl
  simp only [drawn, hox, hoy, hrows, State.setV_FB]
  generalize drawRows (originX s x) (originY s y) (rowsOf s n) ⟨s.FB, false⟩ = k
  exact setV_setV ((advance s).setFB k.FB) r VF b (collisionByte k.collision)

/-- `exec_setV_of_unread` for an instruction that completes and writes the one register `x`. -/
theorem exec_setV_of_writes {r x : RegIdx} {b : Byte} (hw : Writes i = [x])
    (he : exec i (s.setV r b) = .next (if x = r then t else t.setV r b)) :
    (r ∉ Writes i ∧ exec i (s.setV r b) = .next (t.setV r b)) ∨ (r ∈ Writes i ∧ exec i (s.setV r b) = .next t) := by
  by_cases hx : x = r
  · rw [if_pos hx] at he
    exact .inr ⟨by rw [hw, hx]; exact List.mem_singleton_self r, he⟩
  · rw [if_neg hx] at he
    exact .inl ⟨by rw [hw, List.mem_singleton]; exact Ne.symm hx, he⟩

/-- A register that an instruction does not read keeps its changed byte beside the result, where the instruction does not
write it or takes the sprite fault; where the instruction completes and writes it, the result is the same. -/
theorem exec_setV_of_unread {r : RegIdx} (b : Byte) (hr : r ∉ Reads i) (h : exec i s = .next t) :
    (∃ x y n, i = .drw x y n ∧ ¬ SpriteFits s n ∧ exec i (s.setV r b) = .next (t.setV r b)) ∨
    (r ∉ Writes i ∧ exec i (s.setV r b) = .next (t.setV r b)) ∨
    (r ∈ Writes i ∧ exec i (s.setV r b) = .next t) := by
  cases effect_of_exec h with
  | cls | jp _ | ldI _ => exact .inr (.inl ⟨List.not_mem_nil, rfl⟩)
  | ldV x nn =>
    exact .inr (exec_setV_of_writes rfl (congrArg _ (setV_setV (advance s) r x b nn)))
  | addV x nn =>
    have hread : (s.setV r b).readV x = s.readV x := s.readV_setV_of_ne (List.ne_of_not_mem_cons hr).symm b
    refine .inr (exec_setV_of_writes rfl ?_)
    rw [← setV_setV (advance s) r x b, ← hread]
    rfl
  | spriteFault x y n hout => exact .inl ⟨x, y, n, rfl, hout, exec_drw_of_not_fits (s := s.setV r b) x y hout⟩
  | drw x y n hfit =>
    obtain ⟨hx, hy⟩ : r ≠ x ∧ r ≠ y := by simpa [Reads] using hr
    refine .inr (exec_setV_of_writes rfl ?_)
    rw [← drawn_setV hx hy]
    exact exec_drw_of_fits (s := s.setV r b) x y hfit

/-- On another display a draw leaves another display and another flag, and the rest as before. -/
theorem drawn_setFB (s : State) (d : Display) (x y : RegIdx) (n : RowCount) :
    ∃ e v, drawn (s.setFB d) x y n = ((drawn s x y n).setFB e).setV VF v := by
  let k := drawRows (originX s x) (originY s y) (rowsOf s n) ⟨d, false⟩
  exact ⟨k.FB, collisionByte k.collision, (setV_setV_same ((advance s).setFB k.FB) VF _ _).symm⟩

/-- Another display before an instruction leaves another display after it, and another VF where the instruction is a draw
(10_state.md R26). -/
theorem exec_setFB (d : Display) (h : exec i s = .next t) :
    (∃ e, exec i (s.setFB d) = .next (t.setFB e)) ∨
    (∃ x y n e v, i = .drw x y n ∧ exec i (s.setFB d) = .next ((t.setFB e).setV VF v)) := by
  cases effect_of_exec h with
  | cls => exact .inl ⟨Display.unlit, rfl⟩
  | spriteFault x y n hout => exact .inl ⟨d, exec_drw_of_not_fits (s := s.setFB d) x y hout⟩
  | drw x y n hfit =>
    obtain ⟨e, v, he⟩ := drawn_setFB s d x y n
    exact .inr ⟨x, y, n, e, v, rfl, he ▸ exec_drw_of_fits (s := s.setFB d) x y hfit⟩
  | _ => exact .inl ⟨d, rfl⟩

/-- The cycle's own checks do not look at the display: a step differs as its instruction does (60_exceptions.md R98). -/
theorem step_setFB (d : Display) (h : step s = .next t) :
    (∃ e, step (s.setFB d) = .next (t.setFB e)) ∨
    (∃ x y n e v, Runs s (.drw x y n) ∧ step (s.setFB d) = .next ((t.setFB e).setV VF v)) := by
  rcases step_cases s with ⟨hst, he⟩ | ⟨hst, hf, he⟩ | ⟨w, hst, hf, hd, he⟩ | ⟨w, i, hst, hf, hd, he⟩ <;> rw [he] at h
  · obtain rfl := Host.Outcome.next.inj h
    exact .inl ⟨d, step_of_faulted (s := s.setFB d) hst⟩
  · obtain rfl := Host.Outcome.next.inj h
    exact .inl ⟨d, step_of_fetch_eq_none (s := s.setFB d) hst hf⟩
  · obtain rfl := Host.Outcome.next.inj h
    exact .inl ⟨d, step_of_decode_unimplemented (s := s.setFB d) hst hf hd⟩
  · have hstep : step (s.setFB d) = exec i (s.setFB d) := step_of_runs (runs_iff.2 ⟨w, hst, hf, hd⟩)
    rw [hstep]
    rcases exec_setFB d h with hfb | ⟨x, y, n, e, v, rfl, hfb⟩
    · exact .inl hfb
    · exact .inr ⟨x, y, n, e, v, runs_iff.2 ⟨w, hst, hf, hd⟩, hfb⟩

end Sys2Proof.Machine

/-! ### The statements about what makes no difference (10_state.md) -/

namespace Sys2Proof.Proofs

open Sys2Proof.Machine Sys2Proof.Claims

/-- Settles O28: from the changed register the result is the old one, with that register changed where no write of the
instruction hides it. -/
theorem unreadRegistersMakeNoDifference : Obligations.UnreadRegistersMakeNoDifference := by
  intro i s t r b hr h
  rcases exec_setV_of_unread b hr h with ⟨x, y, n, hi, hout, hu⟩ | ⟨hw, hu⟩ | ⟨hw, hu⟩
  · exact ⟨t.setV r b, hu, rfl, rfl, rfl, rfl, rfl, fun q hq => t.readV_setV_of_ne hq b,
      fun hw => ⟨t.readV_setV_same r b, exec_keeps_readV h hw⟩, fun _ hfit => absurd (hfit x y n hi) hout⟩
  · exact ⟨t.setV r b, hu, rfl, rfl, rfl, rfl, rfl, fun q hq => t.readV_setV_of_ne hq b,
      fun _ => ⟨t.readV_setV_same r b, exec_keeps_readV h hw⟩, fun hw' => absurd hw' hw⟩
  · exact ⟨t, hu, rfl, rfl, rfl, rfl, rfl, fun _ _ => rfl, fun hw' => absurd hw hw', fun _ _ => rfl⟩

/-- Settles O33: on another display a step ends as before but for the display, and for VF where it runs a draw. -/
theorem displayDoesNotSteerTheMachine : Obligations.DisplayDoesNotSteerTheMachine := by
  intro s t d h
  rcases step_setFB d h with ⟨e, hu⟩ | ⟨x, y, n, e, v, hrun, hu⟩
  · exact ⟨t.setFB e, hu, rfl, rfl, rfl, rfl, fun _ _ => rfl, fun _ => rfl⟩
  · exact ⟨(t.setFB e).setV VF v, hu, rfl, rfl, rfl, rfl, fun r hr => (t.setFB e).readV_setV_of_ne hr v,
      fun hno => absurd hrun (hno x y n)⟩

end Sys2Proof.Proofs
